-- ==== Sys2Proof/Word.lean ====
section
/-!
DEFINITION. The machine's value types (00_scope.md R6, 20_memory.md R56).

Every value the core stores or computes is a word, an unsigned integer in 0..65535. Bytes
exist only in the image that LoadImage takes (20_memory.md R58).
-/

namespace Sys2Proof

/-- A word: 16 bits, unsigned; "the machine's only value type" (R6). -/
abbrev Word := BitVec 16

/-- A byte of a program image (R58, R62). -/
abbrev Byte := BitVec 8

/-- The number of one of the 8 general registers (R21). -/
abbrev Reg := Fin 8

end Sys2Proof
end

