-- ==== Sys2Proof/Machine/Flags.lean ====
section
/-!
DEFINITION. Conditions. The machine has NO flags, condition codes or predicate registers
(10_state.md R31), so there is no flag to compute: a comparison writes 1 or 0 to a destination,
and a conditional jump tests a value operand for zero. These are the two conversions.
-/

namespace Sys2Proof.Machine

/-- The word a comparison writes: 1 for true and 0 for false (R31, R163). -/
def conditionWord (b : Bool) : Word := if b then 1 else 0

/-- What jt and jf test: any non-zero value is true (R31, R192). -/
def holds (v : Word) : Bool := decide (v ≠ 0)

end Sys2Proof.Machine
end

