-- ==== Sys2Proof/Config.lean ====
section
/-!
DEFINITION. The implementation parameters of 00_scope.md R5 that the spec leaves to a model.

R5: "A model takes MEM_WORDS and STACK_CAPACITY as arguments. All other values are fixed."
They are held in State as constants (DESIGN CHOICE, log entries 1 and 2), so a statement over
all states holds for every value of both. The fixed values (word width, 8 registers, 22
opcodes, literal limit 32767, register base 32768, modulus 32768) stand in the definitions that
use them. The spec leaves no free value, so this file declares no opaque constant.
-/

namespace Sys2Proof

/-- The two parameters of R5. -/
structure Params where
  /-- MEM_WORDS: the number of program-memory words (R5, R50). -/
  memWords : Nat
  /-- STACK_CAPACITY: the greatest stack depth, `none` for unbounded (R5, R34). -/
  stackCapacity : Option Nat
  deriving DecidableEq, Repr

/-- The values R5 allows: 1 <= MEM_WORDS <= 32768, and a capacity that is positive or
unbounded. -/
def Params.wf (p : Params) : Bool :=
  decide (1 ≤ p.memWords) && decide (p.memWords ≤ 32768) &&
    match p.stackCapacity with
    | none => true
    | some c => decide (1 ≤ c)

/-- The parameters at State.reset: MEM_WORDS at the spec's default 32768 (R5).
DESIGN CHOICE (log entry 2): STACK_CAPACITY is open, and unbounded here, which R34 allows. -/
def Params.default : Params := { memWords := 32768, stackCapacity := none }

end Sys2Proof
end

