-- ==== Sys2Proof/Machine/State.lean ====
section
/-!
DEFINITION. The state of the block (10_state.md R20), the host's side of its interface, and the
machine right after reset (70_reset_and_hazards.md R270).
-/

namespace Sys2Proof.Machine

/-- Why the machine stops outside its own status register. The faults of 60_exceptions.md R240
are NOT here: they are next states, in FAULTED (R242; DEDUCED, log entry 13). -/
inductive Fault where
  /-- Raised by `waitStep` when the block is in WAIT_IN and the words at pc are not an `in`.
  No state that a run reaches is of this kind (R221: while the block waits, nothing writes
  memory), and the spec gives such a state no step. Safe: it stops. -/
  | waitingAtNoIn
  deriving DecidableEq, Repr

/-- Why an instruction is refused. -/
inductive Refusal where
  /-- Raised by an arm of `exec` whose instruction has no meaning yet. Safe: it stops. No arm
  raises it, since every instruction has its meaning. -/
  | notModelled (mnemonic : String)
  deriving DecidableEq, Repr

/-- The values of the status register `state` (R37). -/
inductive RunState where
  /-- After reset: no image yet, and no instruction executes. -/
  | idle
  /-- Instructions execute. -/
  | run
  /-- An `in` instruction waits for an input word. -/
  | waitIn
  /-- A normal stop. -/
  | halted
  /-- Stopped by a fault. -/
  | faulted
  /-- LoadImage was refused. -/
  | loadFailed
  deriving DecidableEq, Repr

/-- The fault kinds (60_exceptions.md R240). -/
inductive FaultKind where
  | invalidOpcode
  | invalidOperand
  | stackUnderflow
  | divideByZero
  | addressOutOfRange
  | stackOverflow
  | loadError
  deriving DecidableEq, Repr

/-- What the host does in one step (00_scope.md R12, R13; DESIGN CHOICE, log entries 5, 6, 18). -/
inductive HostEvent where
  /-- Nothing: the block takes its own step. -/
  | quiet
  /-- It asserts Reset (R270). -/
  | reset
  /-- It delivers an image (R62). -/
  | loadImage (bytes : List Byte)
  /-- It offers one more word on the input channel (R223). -/
  | offer (v : Word)
  deriving DecidableEq, Repr

/-- Program memory: (word address, word) pairs, addresses strictly rising, no word 0. The cell
is a 16-bit word, since the spec has no smaller access (R50, R56; DESIGN CHOICE, log entry 4). -/
abbrev Memory := List (Nat × Word)

/-- The state: the tuple of R20, then the parameters and the host's side (R20 counts neither
as state of the block). -/
structure State where
  /-- MEM_WORDS and STACK_CAPACITY, constants of the machine (R5; DESIGN CHOICE, log entries 1, 2). -/
  params : Params
  /-- x[0..7] (R21). -/
  regs : Vector Word 8
  /-- The instruction pointer (R25). -/
  pc : Word
  /-- M (R50); a word that is not listed reads as 0. -/
  mem : Memory
  /-- S, the top first: the head is S[sp-1] (R32; DESIGN CHOICE, log entry 9). -/
  stack : List Word
  /-- The register `state` (R37). -/
  run : RunState
  /-- halt_reason (R37). -/
  haltReason : BitVec 1
  /-- fault_code (R38). -/
  faultCode : BitVec 4
  /-- fault_pc (R38). -/
  faultPc : Word
  /-- fault_info (R38). -/
  faultInfo : Word
  /-- The words OutputWord sent before the present run, oldest first: they remain sent (R270;
  DESIGN CHOICE, log entry 19). -/
  sentBefore : List Word
  /-- The words OutputWord has sent in the present run, oldest first (R222, R280). -/
  outputs : List Word
  /-- The input words the block has taken in the present run, oldest first (R223, R280). -/
  taken : List Word
  /-- The input words the host offers and the block has not taken, oldest first (R223). -/
  offered : List Word
  /-- The host's coming events, one a step; when the list is empty the host stays quiet. -/
  schedule : List HostEvent
  deriving DecidableEq, Repr

/-- The machine right after reset (R270, R273: power-up is the same state), nothing loaded and
the host quiet. DESIGN CHOICE: memory, which the spec leaves unspecified until a load, lists
nothing (log entry 3); STACK_CAPACITY is unbounded (log entry 2); the host's side is empty (log
entry 5). -/
def State.reset : State where
  params := Params.default
  regs := Vector.replicate 8 0
  pc := 0
  mem := []
  stack := []
  run := .idle
  haltReason := 0
  faultCode := 0
  faultPc := 0
  faultInfo := 0
  sentBefore := []
  outputs := []
  taken := []
  offered := []
  schedule := []

end Sys2Proof.Machine
end

