-- ==== Sys2Proof/Machine/Ops.lean ====
section
/-!
DEFINITION. The named operations over the state: program memory, registers, the stack, pc, the
run status, and taking a fault (60_exceptions.md R242), which is one shared operation.
-/

namespace Sys2Proof.Machine

/-! ### Program memory -/

/-- What a word that is not listed reads as: 0 (R64; before a load, DESIGN CHOICE, log entry 3). -/
def Memory.unlisted : Word := 0

/-- The word at an address. -/
def Memory.read : Memory → Nat → Word
  | [], _ => Memory.unlisted
  | (b, w) :: rest, a => if a = b then w else Memory.read rest a

/-- Put a word at an address, keeping the canonical form: writing what an unlisted address
reads as removes the entry. -/
def Memory.write : Memory → Nat → Word → Memory
  | [], a, v => if v = Memory.unlisted then [] else [(a, v)]
  | (b, w) :: rest, a, v =>
    if a < b then (if v = Memory.unlisted then (b, w) :: rest else (a, v) :: (b, w) :: rest)
    else if a = b then (if v = Memory.unlisted then rest else (b, v) :: rest)
    else (b, w) :: Memory.write rest a v

/-- The canonical form from address `lo` on. -/
def Memory.wfFrom : Nat → Memory → Bool
  | _, [] => true
  | lo, (a, w) :: rest =>
    decide (lo ≤ a) && decide (w ≠ Memory.unlisted) && Memory.wfFrom (a + 1) rest

/-- The canonical form: addresses strictly rising, and no entry equal to what an unlisted
address reads as. -/
def Memory.wf (m : Memory) : Bool := Memory.wfFrom 0 m

/-- Put words at consecutive addresses from `a` on. -/
def Memory.writeAll : Memory → Nat → List Word → Memory
  | m, _, [] => m
  | m, a, w :: ws => Memory.writeAll (Memory.write m a w) (a + 1) ws

/-- Memory holding `ws` from address `a` on and 0 everywhere else (R62, R64). -/
def Memory.ofWords : Nat → List Word → Memory
  | _, [] => []
  | a, w :: ws =>
    if w = Memory.unlisted then Memory.ofWords (a + 1) ws
    else (a, w) :: Memory.ofWords (a + 1) ws

/-- `M[a]`. -/
def State.word (s : State) (a : Nat) : Word := Memory.read s.mem a

/-- `M[a] <- v`, with no check. -/
def State.putWord (s : State) (a : Nat) (v : Word) : State :=
  { s with mem := Memory.write s.mem a v }

/-! ### Registers, pc, stack, status -/

/-- `x[r]` (R8). -/
def State.reg (s : State) (r : Reg) : Word := s.regs[r.val]

/-- `x[r] <- v` (R8). -/
def State.setReg (s : State) (r : Reg) (v : Word) : State :=
  { s with regs := s.regs.set r.val v r.isLt }

/-- `pc <- t` (R8). -/
def State.setPc (s : State) (t : Word) : State := { s with pc := t }

/-- Move pc past an instruction of `n` words (R26, R96). The sum wraps at 16 bits only where no
run comes (R29; DEDUCED, log entry 14). -/
def State.advance (s : State) (n : Nat) : State := s.setPc (s.pc + BitVec.ofNat 16 n)

/-- The stack depth `sp` (R32). -/
def State.sp (s : State) : Nat := s.stack.length

/-- The stack cell `S[i]`, for i below sp (R32). -/
def State.cell (s : State) (i : Nat) : Option Word := s.stack.reverse[i]?

/-- Replace the stack's contents, the top first. -/
def State.setStack (s : State) (st : List Word) : State := { s with stack := st }

/-- A normal stop with its halt_reason (R190, R195, R248). -/
def State.enterHalted (s : State) (reason : BitVec 1) : State :=
  { s with run := .halted, haltReason := reason }

/-- Change the run state alone (R97). -/
def State.setRun (s : State) (r : RunState) : State := { s with run := r }

/-- `Output(v)`: raise OutputWord(v) (R222). -/
def State.send (s : State) (v : Word) : State := { s with outputs := s.outputs ++ [v] }

/-- Every word sent so far, in this run and before it (R222, R270). -/
def State.allSent (s : State) : List Word := s.sentBefore ++ s.outputs

/-- Take the input word `v` off the words the host offers, which leaves it `rest` (R223). -/
def State.takeOffer (s : State) (v : Word) (rest : List Word) : State :=
  { s with offered := rest, taken := s.taken ++ [v] }

/-- Replace the words the host offers (R223). -/
def State.setOffered (s : State) (vs : List Word) : State := { s with offered := vs }

/-- Replace the host's coming events. -/
def State.setSchedule (s : State) (es : List HostEvent) : State := { s with schedule := es }

/-! ### Faults -/

/-- The code of a fault kind (R240). -/
def FaultKind.code : FaultKind → BitVec 4
  | .invalidOpcode => 1
  | .invalidOperand => 2
  | .stackUnderflow => 3
  | .divideByZero => 4
  | .addressOutOfRange => 5
  | .stackOverflow => 6
  | .loadError => 7

/-- A raised fault: its kind and the word that caused it (R8, R240). -/
structure Raised where
  kind : FaultKind
  info : Word
  deriving DecidableEq, Repr

/-- Take a fault (R242). `s` is the state before the instruction, so pc is A and stays A,
and every register, memory word and stack entry keeps its value. -/
def takeFault (s : State) (e : Raised) : State :=
  { s with
    run := .faulted
    faultCode := e.kind.code
    faultPc := s.pc
    faultInfo := e.info }

/-- End an instruction that began in `s` (R99): its writes all happen, or it faults and makes
none of them. -/
def finish (s : State) (r : Except Raised State) : Host.Outcome State Fault Refusal :=
  match r with
  | .ok t => .next t
  | .error e => .next (takeFault s e)

/-! ### The checked primitives -/

/-- `MemRead(addr, 1)` (R54). -/
def memRead (s : State) (addr : Word) : Except Raised Word :=
  if s.params.memWords ≤ addr.toNat then .error ⟨.addressOutOfRange, addr⟩
  else .ok (s.word addr.toNat)

/-- `MemWrite(addr, 1, v)` (R55). -/
def memWrite (s : State) (addr v : Word) : Except Raised State :=
  if s.params.memWords ≤ addr.toNat then .error ⟨.addressOutOfRange, addr⟩
  else .ok (s.putWord addr.toNat v)

/-- Whether STACK_CAPACITY is bounded and sp equals it (R33). -/
def stackFull (s : State) : Bool :=
  match s.params.stackCapacity with
  | none => false
  | some c => decide (s.sp = c)

/-- `Push(v)` (R33). -/
def push (s : State) (v : Word) : Except Raised State :=
  if stackFull s then .error ⟨.stackOverflow, 0⟩ else .ok (s.setStack (v :: s.stack))

/-- `Pop()` (R33): the popped word and the state after it. -/
def pop (s : State) : Except Raised (Word × State) :=
  match s.stack with
  | [] => .error ⟨.stackUnderflow, 0⟩
  | v :: rest => .ok (v, s.setStack rest)

end Sys2Proof.Machine
end

