-- ==== Sys2Proof/Syntax.lean ====
section
/-!
DEFINITION. The 22 instructions of SYN22 (30_encoding.md R88), one constructor per row of the
opcode table, in the table's order.

An operand is what the resolver of R83 to R85 sees in a valid operand word. Invalid operand
words (32776 and above) are rejected by the decoder, so they have no term here (DESIGN CHOICE,
log entry 10).
The constructor of the row `in` is named `inp`, as `in` is a word of Lean's own.
-/

namespace Sys2Proof

/-- The two valid classes of operand word (R83). -/
inductive Operand where
  /-- A literal 0..32767 (R83, R87). -/
  | lit (v : BitVec 15)
  /-- A reference to register r0 to r7, encoded as 32768 + r (R21, R83). -/
  | reg (r : Reg)
  deriving DecidableEq, Repr

/-- The instructions. In each docstring D is a destination operand and V a value operand
(R86). -/
inductive Instr where
  /-- Opcode 0 (R190). -/
  | halt
  /-- Opcode 1, D V (R120). -/
  | set (a b : Operand)
  /-- Opcode 2, V (R121). -/
  | push (a : Operand)
  /-- Opcode 3, D (R122). -/
  | pop (a : Operand)
  /-- Opcode 4, D V V (R150). -/
  | eq (a b c : Operand)
  /-- Opcode 5, D V V (R151). -/
  | gt (a b c : Operand)
  /-- Opcode 6, V (R191). -/
  | jmp (a : Operand)
  /-- Opcode 7, V V (R192). -/
  | jt (a b : Operand)
  /-- Opcode 8, V V (R193). -/
  | jf (a b : Operand)
  /-- Opcode 9, D V V (R152). -/
  | add (a b c : Operand)
  /-- Opcode 10, D V V (R153). -/
  | mult (a b c : Operand)
  /-- Opcode 11, D V V (R154). -/
  | mod (a b c : Operand)
  /-- Opcode 12, D V V (R155). -/
  | and (a b c : Operand)
  /-- Opcode 13, D V V (R156). -/
  | or (a b c : Operand)
  /-- Opcode 14, D V (R157). -/
  | not (a b : Operand)
  /-- Opcode 15, D V (R123). -/
  | rmem (a b : Operand)
  /-- Opcode 16, V V (R124). -/
  | wmem (a b : Operand)
  /-- Opcode 17, V (R194). -/
  | call (a : Operand)
  /-- Opcode 18 (R195). -/
  | ret
  /-- Opcode 19, V (R220). -/
  | out (a : Operand)
  /-- Opcode 20, D, the table's `in` (R221). -/
  | inp (a : Operand)
  /-- Opcode 21 (R196). -/
  | noop
  deriving DecidableEq, Repr

end Sys2Proof
end

