-- ==== Sys2Proof/Machine/Operands.lean ====
section
/-!
DEFINITION. The operand resolver (30_encoding.md R83 to R87). There are two operand forms, a
literal and a register, and two uses of each: as a value and as a destination.
-/

namespace Sys2Proof.Machine

/-- `ValueOf` (R84): a literal is itself, zero-extended to 16 bits, and a register reference
is the register's word. -/
def valueOf (s : State) : Operand → Word
  | .lit v => v.setWidth 16
  | .reg r => s.reg r

/-- `WriteDest(DestOf(a), v)` (R85): a register reference writes the register, and a literal
writes program memory at that address, through MemWrite and its range check. Decoding has
already made that check (R95), so on a decoded instruction it never fails (DEDUCED, log entry
15). -/
def writeDest (s : State) (a : Operand) (v : Word) : Except Raised State :=
  match a with
  | .reg r => .ok (s.setReg r v)
  | .lit d => memWrite s (d.setWidth 16) v

/-- What the location that a destination operand names holds (R85). -/
def destWord (s : State) : Operand → Word
  | .reg r => s.reg r
  | .lit d => s.word d.toNat

end Sys2Proof.Machine
end

