-- ==== Sys2Proof/Machine/Alu.lean ====
section
/-!
DEFINITION. The ALU: eq, gt, add, mult, mod, and, or, not (41_alu.md). Operands are unsigned
16-bit words (R158). Each meaning takes the state with pc at A (DESIGN CHOICE, log entry 8).
-/

namespace Sys2Proof.Machine

/-! ### The results -/

/-- R150: full words are compared. -/
def aluEq (b c : Word) : Word := conditionWord (decide (b = c))

/-- R151: unsigned and strict. -/
def aluGt (b c : Word) : Word := conditionWord (decide (c.toNat < b.toNat))

/-- R152, R159: the exact sum, then reduced. -/
def aluAdd (b c : Word) : Word := BitVec.ofNat 16 ((b.toNat + c.toNat) % 32768)

/-- R153, R159: the exact product, then reduced. -/
def aluMult (b c : Word) : Word := BitVec.ofNat 16 ((b.toNat * c.toNat) % 32768)

/-- R154, R160, R164: the unsigned remainder, not reduced; a divisor of 0 raises
DivideByZero. -/
def aluMod (b c : Word) : Except Raised Word :=
  if c = 0 then .error ⟨.divideByZero, 0⟩ else .ok (BitVec.ofNat 16 (b.toNat % c.toNat))

/-- R155, R160. -/
def aluAnd (b c : Word) : Word := b &&& c

/-- R156, R160. -/
def aluOr (b c : Word) : Word := b ||| c

/-- R157, R161. -/
def aluNot (b : Word) : Word := ~~~b &&& 0x7FFF#16

/-- Write an ALU result through the destination of a four-word instruction (R165). -/
def writeResult (s : State) (a : Operand) (v : Word) : Host.Outcome State Fault Refusal :=
  finish s (writeDest (s.advance 4) a v)

/-! ### The instructions -/

/-- eq a, b, c (R150). -/
def execEq (a b c : Operand) (s : State) : Host.Outcome State Fault Refusal :=
  writeResult s a (aluEq (valueOf s b) (valueOf s c))

/-- gt a, b, c (R151). -/
def execGt (a b c : Operand) (s : State) : Host.Outcome State Fault Refusal :=
  writeResult s a (aluGt (valueOf s b) (valueOf s c))

/-- add a, b, c (R152). -/
def execAdd (a b c : Operand) (s : State) : Host.Outcome State Fault Refusal :=
  writeResult s a (aluAdd (valueOf s b) (valueOf s c))

/-- mult a, b, c (R153). -/
def execMult (a b c : Operand) (s : State) : Host.Outcome State Fault Refusal :=
  writeResult s a (aluMult (valueOf s b) (valueOf s c))

/-- mod a, b, c (R154). -/
def execMod (a b c : Operand) (s : State) : Host.Outcome State Fault Refusal :=
  match aluMod (valueOf s b) (valueOf s c) with
  | .error e => finish s (.error e)
  | .ok r => writeResult s a r

/-- and a, b, c (R155). -/
def execAnd (a b c : Operand) (s : State) : Host.Outcome State Fault Refusal :=
  writeResult s a (aluAnd (valueOf s b) (valueOf s c))

/-- or a, b, c (R156). -/
def execOr (a b c : Operand) (s : State) : Host.Outcome State Fault Refusal :=
  writeResult s a (aluOr (valueOf s b) (valueOf s c))

/-- not a, b (R157). -/
def execNot (a b : Operand) (s : State) : Host.Outcome State Fault Refusal :=
  finish s (writeDest (s.advance 3) a (aluNot (valueOf s b)))

end Sys2Proof.Machine
end

