-- ==== Sys2Proof/Machine/Control.lean ====
section
/-!
DEFINITION. Control transfer and machine control: halt, jmp, jt, jf, call, ret, noop
(42_control.md). Targets are absolute and unchecked (R197). Each meaning takes the state with
pc at A (DESIGN CHOICE, log entry 8).
-/

namespace Sys2Proof.Machine

/-- halt (R190): pc stays at A + 1. -/
def execHalt (s : State) : Host.Outcome State Fault Refusal :=
  .next ((s.advance 1).enterHalted 0)

/-- jmp a (R191). -/
def execJmp (a : Operand) (s : State) : Host.Outcome State Fault Refusal :=
  .next (s.setPc (valueOf s a))

/-- A jump to `t` when `taken`, else on to the next instruction of a three-word jump
(R192, R193). -/
def branch (s : State) (taken : Bool) (t : Word) : State :=
  if taken then s.setPc t else s.advance 3

/-- jt a, b (R192). -/
def execJt (a b : Operand) (s : State) : Host.Outcome State Fault Refusal :=
  .next (branch s (holds (valueOf s a)) (valueOf s b))

/-- jf a, b (R193). -/
def execJf (a b : Operand) (s : State) : Host.Outcome State Fault Refusal :=
  .next (branch s (!holds (valueOf s a)) (valueOf s b))

/-- call a (R194): the target is read before the push, and the return address is A + 2. -/
def execCall (a : Operand) (s : State) : Host.Outcome State Fault Refusal :=
  match push s (s.advance 2).pc with
  | .error e => finish s (.error e)
  | .ok t => finish s (.ok (t.setPc (valueOf s a)))

/-- ret (R195): an empty stack is a normal stop, not a fault (90_conflicts.md C3). -/
def execRet (s : State) : Host.Outcome State Fault Refusal :=
  match s.stack with
  | [] => .next ((s.advance 1).enterHalted 1)
  | v :: rest => .next ((s.setStack rest).setPc v)

/-- noop (R196). -/
def execNoop (s : State) : Host.Outcome State Fault Refusal :=
  .next (s.advance 1)

end Sys2Proof.Machine
end

