-- ==== Sys2Proof/Machine/DataMovement.lean ====
section
/-!
DEFINITION. Data movement: set, push, pop, rmem, wmem (40_data_movement.md).

Every meaning takes the state with pc at A, the address of the instruction's opcode word, and
moves pc past the instruction itself (DESIGN CHOICE, log entry 8). All reads are of the state
before any write (30_encoding.md R100).
-/

namespace Sys2Proof.Machine

/-- set a, b (R120). -/
def execSet (a b : Operand) (s : State) : Host.Outcome State Fault Refusal :=
  finish s (writeDest (s.advance 3) a (valueOf s b))

/-- push a (R121). -/
def execPush (a : Operand) (s : State) : Host.Outcome State Fault Refusal :=
  finish s (push (s.advance 2) (valueOf s a))

/-- pop a (R122). -/
def execPop (a : Operand) (s : State) : Host.Outcome State Fault Refusal :=
  match pop (s.advance 2) with
  | .error e => finish s (.error e)
  | .ok (v, t) => finish s (writeDest t a v)

/-- rmem a, b (R123). -/
def execRmem (a b : Operand) (s : State) : Host.Outcome State Fault Refusal :=
  match memRead s (valueOf s b) with
  | .error e => finish s (.error e)
  | .ok v => finish s (writeDest (s.advance 3) a v)

/-- wmem a, b (R124). -/
def execWmem (a b : Operand) (s : State) : Host.Outcome State Fault Refusal :=
  finish s (memWrite (s.advance 3) (valueOf s a) (valueOf s b))

end Sys2Proof.Machine
end

