-- ==== Sys2Proof/Machine/InOut.lean ====
section
/-!
DEFINITION. Input and output: out, in (43_io.md). Each meaning takes the state with pc at A
(DESIGN CHOICE, log entry 8).
-/

namespace Sys2Proof.Machine

/-- out a (R220): the full word is sent, and the host always accepts it (R222). -/
def execOut (a : Operand) (s : State) : Host.Outcome State Fault Refusal :=
  .next ((s.advance 2).send (valueOf s a))

/-- The state in which a waiting `in` writes its destination: the input word `v` taken off the
offers, pc past the instruction, and the block back in RUN (R221, second half). -/
def inputTaken (s : State) (v : Word) (rest : List Word) : State :=
  ((s.takeOffer v rest).advance 2).setRun .run

/-- in a (R221). Its two halves: reached in RUN, it begins to wait, with pc still at A; in
WAIT_IN it takes the first word the host offers, and while there is none it waits on (R225).
DESIGN CHOICE: both halves stand in one meaning (log entry 18), and any run state but WAIT_IN
is taken as RUN, the only other one from which the block executes (log entry 15). -/
def execIn (a : Operand) (s : State) : Host.Outcome State Fault Refusal :=
  if s.run = .waitIn then
    match s.offered with
    | [] => .next s
    | v :: rest => finish s (writeDest (inputTaken s v rest) a v)
  else .next (s.setRun .waitIn)

end Sys2Proof.Machine
end

