-- ==== Sys2Proof/Machine/Dispatch.lean ====
section
/-!
DEFINITION. One arm per instruction (30_encoding.md R88), in the table's order.
-/

namespace Sys2Proof.Machine

def exec (i : Instr) (s : State) : Host.Outcome State Fault Refusal :=
  match i with
  | .halt => Sys2Proof.Machine.execHalt s
  | .set a b => Sys2Proof.Machine.execSet a b s
  | .push a => Sys2Proof.Machine.execPush a s
  | .pop a => Sys2Proof.Machine.execPop a s
  | .eq a b c => Sys2Proof.Machine.execEq a b c s
  | .gt a b c => Sys2Proof.Machine.execGt a b c s
  | .jmp a => Sys2Proof.Machine.execJmp a s
  | .jt a b => Sys2Proof.Machine.execJt a b s
  | .jf a b => Sys2Proof.Machine.execJf a b s
  | .add a b c => Sys2Proof.Machine.execAdd a b c s
  | .mult a b c => Sys2Proof.Machine.execMult a b c s
  | .mod a b c => Sys2Proof.Machine.execMod a b c s
  | .and a b c => Sys2Proof.Machine.execAnd a b c s
  | .or a b c => Sys2Proof.Machine.execOr a b c s
  | .not a b => Sys2Proof.Machine.execNot a b s
  | .rmem a b => Sys2Proof.Machine.execRmem a b s
  | .wmem a b => Sys2Proof.Machine.execWmem a b s
  | .call a => Sys2Proof.Machine.execCall a s
  | .ret => Sys2Proof.Machine.execRet s
  | .out a => Sys2Proof.Machine.execOut a s
  | .inp a => Sys2Proof.Machine.execIn a s
  | .noop => Sys2Proof.Machine.execNoop s

end Sys2Proof.Machine
end

