-- ==== Sys2Proof/WellFormed.lean ====
section
/-!
DEFINITION. Which instructions decoding can deliver on a machine with a given MEM_WORDS.

The types of Syntax already exclude invalid operand words. What is left is the check that
30_encoding.md R95 makes on destination operands: a literal destination names an address of
program memory.
-/

namespace Sys2Proof

/-- R95: a destination operand that is a literal lies below MEM_WORDS. -/
def Operand.destOk (memWords : Nat) : Operand → Bool
  | .lit v => decide (v.toNat < memWords)
  | .reg _ => true

/-- The check of R95 on the destination operand, for the 12 instructions that have one
(R86); the others are always well formed. -/
def Instr.wellFormed (memWords : Nat) : Instr → Bool
  | .halt => true
  | .set a _ => a.destOk memWords
  | .push _ => true
  | .pop a => a.destOk memWords
  | .eq a _ _ => a.destOk memWords
  | .gt a _ _ => a.destOk memWords
  | .jmp _ => true
  | .jt _ _ => true
  | .jf _ _ => true
  | .add a _ _ => a.destOk memWords
  | .mult a _ _ => a.destOk memWords
  | .mod a _ _ => a.destOk memWords
  | .and a _ _ => a.destOk memWords
  | .or a _ _ => a.destOk memWords
  | .not a _ => a.destOk memWords
  | .rmem a _ => a.destOk memWords
  | .wmem _ _ => true
  | .call _ => true
  | .ret => true
  | .out _ => true
  | .inp a => a.destOk memWords
  | .noop => true

end Sys2Proof
end

