-- ==== Sys2Proof/Decode.lean ====
section
/-!
DEFINITION. The decoder of 30_encoding.md R95 over the words of an instruction, and the
encoder over the same encoding table (R81, R83, R88).

The decoder takes the words that memory holds from the instruction's address on, as many as
lie inside memory, and makes the checks of R95 in its order: a word that is missing is a fetch
outside memory. It is total and rejects by name.
-/

namespace Sys2Proof

/-- Why decoding stops (R95). The machine turns each into the fault R95 names. -/
inductive DecodeError where
  /-- Word number `j` of the instruction (0 for the opcode) lies outside memory. -/
  | missingWord (j : Nat)
  /-- The opcode word is above 21 (R89). -/
  | invalidOpcode (op : Word)
  /-- An operand word is above 32775 (R90). -/
  | invalidOperand (w : Word)
  /-- A literal destination is at or beyond MEM_WORDS (R95). -/
  | destOutside (w : Word)
  deriving DecidableEq, Repr

/-- The class of an operand word (R83), `none` for an invalid one. -/
def operandOf (w : Word) : Option Operand :=
  if w.toNat < 32768 then some (.lit (w.setWidth 15))
  else if w.toNat < 32776 then some (.reg (Fin.ofNat 8 (w.toNat - 32768)))
  else none

/-- The operand word of an operand (R83): a literal zero-extended, register r as 32768 + r. -/
def Operand.word : Operand → Word
  | .lit v => v.setWidth 16
  | .reg r => BitVec.ofNat 16 (32768 + r.val)

/-- Take value operand number `j` (kind V of R86) off the words and go on with it. -/
def needV (j : Nat) (ws : List Word)
    (k : Operand → List Word → Except DecodeError Instr) : Except DecodeError Instr :=
  match ws with
  | [] => .error (.missingWord j)
  | w :: rest =>
    match operandOf w with
    | none => .error (.invalidOperand w)
    | some o => k o rest

/-- Take destination operand number `j` (kind D of R86) off the words and go on with it. -/
def needD (memWords j : Nat) (ws : List Word)
    (k : Operand → List Word → Except DecodeError Instr) : Except DecodeError Instr :=
  needV j ws fun o rest =>
    if o.destOk memWords then k o rest
    else .error (.destOutside o.word)

/-- Operand kinds V. -/
def formV (ws : List Word) (mk : Operand → Instr) : Except DecodeError Instr :=
  needV 1 ws fun a _ => .ok (mk a)

/-- Operand kinds D. -/
def formD (memWords : Nat) (ws : List Word) (mk : Operand → Instr) :
    Except DecodeError Instr :=
  needD memWords 1 ws fun a _ => .ok (mk a)

/-- Operand kinds V V. -/
def formVV (ws : List Word) (mk : Operand → Operand → Instr) : Except DecodeError Instr :=
  needV 1 ws fun a r => needV 2 r fun b _ => .ok (mk a b)

/-- Operand kinds D V. -/
def formDV (memWords : Nat) (ws : List Word) (mk : Operand → Operand → Instr) :
    Except DecodeError Instr :=
  needD memWords 1 ws fun a r => needV 2 r fun b _ => .ok (mk a b)

/-- Operand kinds D V V. -/
def formDVV (memWords : Nat) (ws : List Word) (mk : Operand → Operand → Operand → Instr) :
    Except DecodeError Instr :=
  needD memWords 1 ws fun a r => needV 2 r fun b r' => needV 3 r' fun c _ => .ok (mk a b c)

/-- Decode an instruction from the words at its address (R95), by the opcode map of R88. -/
def decode (memWords : Nat) (ws : List Word) : Except DecodeError Instr :=
  match ws with
  | [] => .error (.missingWord 0)
  | op :: rest =>
    match op.toNat with
    | 0 => .ok .halt
    | 1 => formDV memWords rest .set
    | 2 => formV rest .push
    | 3 => formD memWords rest .pop
    | 4 => formDVV memWords rest .eq
    | 5 => formDVV memWords rest .gt
    | 6 => formV rest .jmp
    | 7 => formVV rest .jt
    | 8 => formVV rest .jf
    | 9 => formDVV memWords rest .add
    | 10 => formDVV memWords rest .mult
    | 11 => formDVV memWords rest .mod
    | 12 => formDVV memWords rest .and
    | 13 => formDVV memWords rest .or
    | 14 => formDV memWords rest .not
    | 15 => formDV memWords rest .rmem
    | 16 => formVV rest .wmem
    | 17 => formV rest .call
    | 18 => .ok .ret
    | 19 => formV rest .out
    | 20 => formD memWords rest .inp
    | 21 => .ok .noop
    | _ => .error (.invalidOpcode op)

/-- The words of an instruction (R81, R88): the opcode word, then the operands in order. -/
def encode : Instr → List Word
  | .halt => [0]
  | .set a b => [1, a.word, b.word]
  | .push a => [2, a.word]
  | .pop a => [3, a.word]
  | .eq a b c => [4, a.word, b.word, c.word]
  | .gt a b c => [5, a.word, b.word, c.word]
  | .jmp a => [6, a.word]
  | .jt a b => [7, a.word, b.word]
  | .jf a b => [8, a.word, b.word]
  | .add a b c => [9, a.word, b.word, c.word]
  | .mult a b c => [10, a.word, b.word, c.word]
  | .mod a b c => [11, a.word, b.word, c.word]
  | .and a b c => [12, a.word, b.word, c.word]
  | .or a b c => [13, a.word, b.word, c.word]
  | .not a b => [14, a.word, b.word]
  | .rmem a b => [15, a.word, b.word]
  | .wmem a b => [16, a.word, b.word]
  | .call a => [17, a.word]
  | .ret => [18]
  | .out a => [19, a.word]
  | .inp a => [20, a.word]
  | .noop => [21]

/-- The length in words, 1 + arity (R88, R92). -/
def Instr.length : Instr → Nat
  | .halt | .ret | .noop => 1
  | .push _ | .pop _ | .jmp _ | .call _ | .out _ | .inp _ => 2
  | .set _ _ | .jt _ _ | .jf _ _ | .not _ _ | .rmem _ _ | .wmem _ _ => 3
  | .eq _ _ _ | .gt _ _ _ | .add _ _ _ | .mult _ _ _ | .mod _ _ _ | .and _ _ _
  | .or _ _ _ => 4

/-- The four words of an instruction written as one number of `nbits` bits, the opcode word
in bits 15..0 and each later word above it; every bit from `nbits` up is 0. Four words are the
longest instruction (R80). -/
def tableWords (nbits w : Nat) : List Word :=
  let v := w % 2 ^ nbits
  [BitVec.ofNat 16 v, BitVec.ofNat 16 (v / 2 ^ 16), BitVec.ofNat 16 (v / 2 ^ 32),
    BitVec.ofNat 16 (v / 2 ^ 48)]

/-- The instruction the decoder reads from a table row's word, on a machine with the default
MEM_WORDS (R5). -/
def decodeTableWord (nbits w : Nat) : Option Instr :=
  match decode Params.default.memWords (tableWords nbits w) with
  | .ok i => some i
  | .error _ => none

end Sys2Proof
end

