-- ==== Sys2Proof/Machine/Fetch.lean ====
section
/-!
DEFINITION. Fetching and decoding the instruction at pc (30_encoding.md R95), and the fault
that each failed check raises (60_exceptions.md R244).
-/

namespace Sys2Proof.Machine

/-- The words at addresses a, a+1, ... that lie inside memory, at most `n` of them. Reading
ahead is unseen, since a read has no side effect (20_memory.md R60; DEDUCED, log entry 11). -/
def fetchWords (s : State) : Nat → Nat → List Word
  | 0, _ => []
  | n + 1, a =>
    if a < s.params.memWords then s.word a :: fetchWords s n (a + 1) else []

/-- Decode the instruction at pc; the longest has four words (R80). -/
def decodeAt (s : State) : Except DecodeError Instr :=
  decode s.params.memWords (fetchWords s 4 s.pc.toNat)

/-- The fault of R95 for a failed check of the instruction at address `a`. -/
def decodeFault (a : Word) : DecodeError → Raised
  | .missingWord j => ⟨.addressOutOfRange, a + BitVec.ofNat 16 j⟩
  | .invalidOpcode op => ⟨.invalidOpcode, op⟩
  | .invalidOperand w => ⟨.invalidOperand, w⟩
  | .destOutside w => ⟨.addressOutOfRange, w⟩

end Sys2Proof.Machine
end

