-- ==== Sys2Proof/Machine/HostEvents.lean ====
section
/-!
DEFINITION. The host's events (00_scope.md R12, 43_io.md R226): Reset, LoadImage, an offer of
an input word, and the status read. OutputWord is raised by `out` (Machine/InOut.lean), and an
InputWord is taken by a waiting `in` (there too).
-/

namespace Sys2Proof.Machine

/-- Reset (70_reset_and_hazards.md R270): the block is as at State.reset. The parameters are
constants; words already sent remain sent, and the host keeps its offers and its plans. No run
is under way after it, so the record of one is empty (R280; DESIGN CHOICE, log entry 19). -/
def hostReset (s : State) : State :=
  { State.reset with
    params := s.params
    sentBefore := s.allSent
    offered := s.offered
    schedule := s.schedule }

/-- The words of an image, little-endian (20_memory.md R58, R62). A last odd byte makes no
word; such an image is refused. -/
def imageWords : List Byte → List Word
  | lo :: hi :: rest => BitVec.ofNat 16 (lo.toNat + 256 * hi.toNat) :: imageWords rest
  | _ => []

/-- Whether LoadImage accepts an image (R62, R63): not empty, an even number of bytes, and at
most MEM_WORDS words. -/
def imageOk (p : Params) (bytes : List Byte) : Bool :=
  decide (bytes.length ≠ 0) && decide (bytes.length % 2 = 0) &&
    decide (bytes.length / 2 ≤ p.memWords)

/-- A LoadImage that succeeds (R62, R64, 70_reset_and_hazards.md R272). A run starts here, with
no word sent or taken in it (R280). -/
def loadSucceeds (s : State) (bytes : List Byte) : State :=
  { s with
    mem := Memory.ofWords 0 (imageWords bytes)
    regs := Vector.replicate 8 0
    pc := 0
    stack := []
    run := .run
    haltReason := 0
    faultCode := 0
    faultPc := 0
    faultInfo := 0
    sentBefore := s.allSent
    outputs := []
    taken := [] }

/-- A LoadImage that is refused (R62, R63): only the status changes. -/
def loadRefused (s : State) : State :=
  { s with
    run := .loadFailed
    faultCode := FaultKind.loadError.code
    faultPc := 0
    faultInfo := 0 }

/-- LoadImage (R62): taken only in IDLE, and ignored in every other state. -/
def loadImage (s : State) (bytes : List Byte) : State :=
  if s.run = .idle then
    if imageOk s.params bytes then loadSucceeds s bytes else loadRefused s
  else s

/-- The host offers one more input word, behind those it offers already (43_io.md R223). -/
def offerInput (s : State) (v : Word) : State := s.setOffered (s.offered ++ [v])

/-- The 3-bit encoding of the status register `state` (10_state.md R37). -/
def RunState.code : RunState → BitVec 3
  | .idle => 0
  | .run => 1
  | .waitIn => 2
  | .halted => 3
  | .faulted => 4
  | .loadFailed => 5

/-- What the host reads as the status (00_scope.md R12, 10_state.md R37, R38). -/
structure Status where
  state : BitVec 3
  haltReason : BitVec 1
  faultCode : BitVec 4
  faultPc : Word
  faultInfo : Word
  deriving DecidableEq, Repr

/-- The status read. It is a function of the state and so has no side effect. -/
def readStatus (s : State) : Status where
  state := s.run.code
  haltReason := s.haltReason
  faultCode := s.faultCode
  faultPc := s.faultPc
  faultInfo := s.faultInfo

end Sys2Proof.Machine
end

