-- ==== Sys2Proof/Machine/Cycle.lean ====
section
/-!
DEFINITION. The program-counter state machine (30_encoding.md R96, R97, R98): what the block
does in a step of its own, and what an event of the host does.
-/

namespace Sys2Proof.Machine

/-- A step in RUN (R96): fetch and decode at pc, then execute, or take the fault of the first
check that fails. -/
def runStep (s : State) : Host.Outcome State Fault Refusal :=
  match decodeAt s with
  | .ok i => exec i s
  | .error e => .next (takeFault s (decodeFault s.pc e))

/-- A step in WAIT_IN (R221, R225): the `in` at pc takes an offered word, or waits on. Its
operand is the one at pc, which cannot have changed while the block waits (R221; DEDUCED, log
entry 7). -/
def waitStep (s : State) : Host.Outcome State Fault Refusal :=
  match decodeAt s with
  | .ok (.inp a) => exec (.inp a) s
  | _ => .fault .waitingAtNoIn

/-- The block's own step (R98). In IDLE and in the three terminal states it has none, and the
state stays as it is (R97, R101; DEDUCED, log entry 6). -/
def ownStep (s : State) : Host.Outcome State Fault Refusal :=
  match s.run with
  | .run => runStep s
  | .waitIn => waitStep s
  | .idle => .next s
  | .halted => .next s
  | .faulted => .next s
  | .loadFailed => .next s

/-- One step in which the host does `e` (R12, R13, R97). -/
def eventStep (e : HostEvent) (s : State) : Host.Outcome State Fault Refusal :=
  match e with
  | .quiet => ownStep s
  | .reset => .next (hostReset s)
  | .loadImage bytes => .next (loadImage s bytes)
  | .offer v => .next (offerInput s v)

/-- What the host does in the coming step: the first event of its schedule, and nothing when
that is empty. -/
def nextEvent (s : State) : HostEvent := s.schedule.headD .quiet

end Sys2Proof.Machine
end

