-- ==== Sys2Proof/Machine/Step.lean ====
section
/-!
DEFINITION. One step of the machine (00_scope.md R13): one event of the host, or one step of
the block. And the placing of an instruction where the next step fetches it.
-/

namespace Sys2Proof.Machine

/-- One step: the host's next event is taken off its schedule and happens; when the host is
quiet the block takes its own step. -/
def step (s : State) : Host.Outcome State Fault Refusal :=
  eventStep (nextEvent s) (s.setSchedule s.schedule.tail)

/-- `s` with the instruction whose bits are `w` in memory at pc (as many of its words as lie
inside memory), the block in RUN and the host quiet, so that the next step runs it. It stands
for the LoadImage by which the host brings a program in (20_memory.md R62; DESIGN CHOICE, log
entry 12). -/
def State.withFetchWord (s : State) (nbits w : Nat) : State :=
  { s with
    mem := Memory.writeAll s.mem s.pc.toNat
      ((tableWords nbits w).take (s.params.memWords - s.pc.toNat))
    run := .run
    schedule := [] }

end Sys2Proof.Machine
end

