-- ==== Sys2Proof/Safety.lean ====
section
/-!
DEFINITION. The terms in which claims about the machine are made: what a state must satisfy to
be one a run can reach, what an instruction leaves alone, what a precise fault is, how a run
ends, and the spec's own decode procedure to hold the decoder against.
-/

namespace Sys2Proof.Machine

/-! ### The invariant -/

/-- Memory is in canonical form and lists addresses of program memory alone (20_memory.md
R50). -/
def MemoryOk (s : State) : Prop :=
  Memory.wf s.mem = true ∧ ∀ c ∈ s.mem, c.1 < s.params.memWords

/-- The stack is no deeper than STACK_CAPACITY (10_state.md R33, R34). -/
def StackFits (s : State) : Prop := ∀ c, s.params.stackCapacity = some c → s.sp ≤ c

/-- What 10_state.md R37 and R38 say of the status fields in each run state: halt_reason is 0
outside HALTED; the fault record is clear outside FAULTED and LOAD_FAILED; in FAULTED the code
is that of an instruction's fault and pc is at it; in LOAD_FAILED the record is LoadError's. -/
def StatusOk (s : State) : Prop :=
  (s.run ≠ .halted → s.haltReason = 0) ∧
  (s.run ≠ .faulted → s.run ≠ .loadFailed →
    s.faultCode = 0 ∧ s.faultPc = 0 ∧ s.faultInfo = 0) ∧
  (s.run = .faulted → 1 ≤ s.faultCode.toNat ∧ s.faultCode.toNat ≤ 6 ∧ s.faultPc = s.pc) ∧
  (s.run = .loadFailed → s.faultCode = 7 ∧ s.faultPc = 0 ∧ s.faultInfo = 0)

/-- While the block waits, pc is at the waiting `in` (10_state.md R42, 43_io.md R221). -/
def WaitsAtIn (s : State) : Prop := s.run = .waitIn → ∃ a, decodeAt s = .ok (.inp a)

/-- Before a load the block is as reset left it (70_reset_and_hazards.md R270, 20_memory.md
R63): registers and pc 0, the stack empty; and no run has sent or taken a word (R280). -/
def UnloadedOk (s : State) : Prop :=
  s.run = .idle ∨ s.run = .loadFailed →
    (∀ r, s.reg r = 0) ∧ s.pc = 0 ∧ s.stack = [] ∧ s.outputs = [] ∧ s.taken = []

/-- The invariant of the machine. -/
structure State.Inv (s : State) : Prop where
  params : s.params.wf = true
  memory : MemoryOk s
  stack : StackFits s
  status : StatusOk s
  waits : WaitsAtIn s
  unloaded : UnloadedOk s

/-! ### Frames -/

/-- Every register is unchanged. -/
def SameRegs (s t : State) : Prop := ∀ r, t.reg r = s.reg r

/-- Every word of memory is unchanged. -/
def SameMemory (s t : State) : Prop := ∀ x : Nat, t.word x = s.word x

/-- The run state, halt_reason and the fault record are unchanged. -/
structure SameStatus (s t : State) : Prop where
  run : t.run = s.run
  haltReason : t.haltReason = s.haltReason
  faultCode : t.faultCode = s.faultCode
  faultPc : t.faultPc = s.faultPc
  faultInfo : t.faultInfo = s.faultInfo

/-- The parameters, the host's plans and the words sent before this run are unchanged. No
instruction changes them. -/
structure SameOutside (s t : State) : Prop where
  params : t.params = s.params
  sentBefore : t.sentBefore = s.sentBefore
  schedule : t.schedule = s.schedule

/-- The words sent, the words taken and the words offered are unchanged. -/
structure SameStreams (s t : State) : Prop where
  outputs : t.outputs = s.outputs
  taken : t.taken = s.taken
  offered : t.offered = s.offered

/-- The memory address a destination operand stores to, if it stores to memory (R85). -/
def storedAt : Operand → Option Nat
  | .lit d => some d.toNat
  | .reg _ => none

/-- Nothing among registers and memory changes but the location of the destination `a`. -/
structure OnlyDest (a : Operand) (s t : State) : Prop where
  regs : ∀ r, a ≠ .reg r → t.reg r = s.reg r
  memory : ∀ x : Nat, storedAt a ≠ some x → t.word x = s.word x

/-- The instruction of `n` words at pc in `s` writes `v` to the location of `a`, moves pc past
itself, and changes no other register, memory word, stack entry, status field or channel
(R125, R165). -/
structure WritesDest (a : Operand) (v : Word) (n : Nat) (s t : State) : Prop where
  value : destWord t a = v
  pc : t.pc = s.pc + BitVec.ofNat 16 n
  only : OnlyDest a s t
  stack : t.stack = s.stack
  status : SameStatus s t
  streams : SameStreams s t
  outside : SameOutside s t

/-- The fault `(kind, info)` is taken precisely at pc (60_exceptions.md R242): every register,
memory word and stack entry keeps its value, pc stays at the faulting instruction, the fault
record is filled, and no word is sent or taken. -/
structure FaultsWith (kind : FaultKind) (info : Word) (s t : State) : Prop where
  run : t.run = .faulted
  code : t.faultCode = kind.code
  faultPc : t.faultPc = s.pc
  info : t.faultInfo = info
  pc : t.pc = s.pc
  regs : SameRegs s t
  memory : SameMemory s t
  stack : t.stack = s.stack
  haltReason : t.haltReason = s.haltReason
  streams : SameStreams s t
  outside : SameOutside s t

/-- The jump: pc becomes `target` and nothing else changes. -/
structure OnlyPc (target : Word) (s t : State) : Prop where
  pc : t.pc = target
  regs : SameRegs s t
  memory : SameMemory s t
  stack : t.stack = s.stack
  status : SameStatus s t
  streams : SameStreams s t
  outside : SameOutside s t

/-- The stack becomes `st` and pc becomes `target`; nothing else changes. -/
structure OnlyStackAndPc (st : List Word) (target : Word) (s t : State) : Prop where
  stack : t.stack = st
  pc : t.pc = target
  regs : SameRegs s t
  memory : SameMemory s t
  status : SameStatus s t
  streams : SameStreams s t
  outside : SameOutside s t

/-- A normal stop with pc just past a one-word instruction (R190, R195, R248): only the run
state, halt_reason and pc change. -/
structure HaltsWith (reason : BitVec 1) (s t : State) : Prop where
  run : t.run = .halted
  haltReason : t.haltReason = reason
  pc : t.pc = s.pc + 1
  regs : SameRegs s t
  memory : SameMemory s t
  stack : t.stack = s.stack
  faultCode : t.faultCode = s.faultCode
  faultPc : t.faultPc = s.faultPc
  faultInfo : t.faultInfo = s.faultInfo
  streams : SameStreams s t
  outside : SameOutside s t

/-! ### Steps and runs -/

/-- The block takes its own step next: the host is quiet. -/
def HostQuiet (s : State) : Prop := nextEvent s = .quiet

/-- `s` when the coming step has taken its event off the host's schedule. -/
def State.ticked (s : State) : State := s.setSchedule s.schedule.tail

/-- The instruction `i` stands at pc, all its words inside memory. -/
def StandsAtPc (i : Instr) (s : State) : Prop :=
  ∀ (j : Nat) (h : j < (encode i).length),
    s.pc.toNat + j < s.params.memWords ∧ s.word (s.pc.toNat + j) = (encode i)[j]

/-- The three terminal states (30_encoding.md R101). -/
def RunState.terminal : RunState → Bool
  | .halted | .faulted | .loadFailed => true
  | .idle | .run | .waitIn => false

/-- A run has ended (70_reset_and_hazards.md R280). -/
def State.ended (s : State) : Bool := decide (s.run = .halted) || decide (s.run = .faulted)

/-- Every step from `s` to `t` is taken off the host's schedule, `n` of them, and none is a
Reset: `t` belongs to the run that `s` belongs to (R280). -/
def Within : Nat → State → State → Prop
  | 0, s, t => t = s
  | n + 1, s, t => nextEvent s ≠ .reset ∧ ∃ u, step s = .next u ∧ Within n u t

/-- A run starts with the step from `s` to `t`: a LoadImage of `bytes` that succeeds (R280). -/
def StartsRun (bytes : List Byte) (s t : State) : Prop :=
  nextEvent s = .loadImage bytes ∧ s.run = .idle ∧ step s = .next t ∧ t.run = .run

/-- From `s` on the block stays in the run state `r` for ever. -/
def StaysIn (r : RunState) (s : State) : Prop := ∀ n, ∃ t, Within n s t ∧ t.run = r

/-- The run that `s` belongs to is stuck on input (R225, R280): from some state on it stays in
WAIT_IN for ever. -/
def StuckOnInput (s : State) : Prop := ∃ n t, Within n s t ∧ StaysIn .waitIn t

/-- The run that `s` belongs to is a hang (R280): from some state on it stays in RUN for
ever. -/
def Hangs (s : State) : Prop := ∃ n t, Within n s t ∧ StaysIn .run t

/-- The observation of a run (R280): the status, the registers, pc, stack and memory, and the
words sent in the run. -/
structure Observation where
  status : Status
  regs : Vector Word 8
  pc : Word
  stack : List Word
  mem : Memory
  outputs : List Word
  deriving DecidableEq, Repr

/-- What is observed of a state (R280). -/
def observe (s : State) : Observation where
  status := readStatus s
  regs := s.regs
  pc := s.pc
  stack := s.stack
  mem := s.mem
  outputs := s.outputs

/-- The run that `s` belongs to ends, having taken the input words `inputs` since it started,
with the observation `o` (R280). -/
def EndsWith (s : State) (inputs : List Word) (o : Observation) : Prop :=
  ∃ n t, Within n s t ∧ t.ended = true ∧ t.taken = inputs ∧ observe t = o

/-- The transfers of control (10_state.md R28): the instructions that may give pc a value of
their own. -/
def isTransfer : Instr → Bool
  | .jmp _ | .jt _ _ | .jf _ _ | .call _ | .ret => true
  | .halt | .set _ _ | .push _ | .pop _ | .eq _ _ _ | .gt _ _ _ | .add _ _ _ | .mult _ _ _
  | .mod _ _ _ | .and _ _ _ | .or _ _ _ | .not _ _ | .rmem _ _ | .wmem _ _ | .out _ | .inp _
  | .noop => false

/-- The destination operand of an instruction (R86), if it has one. -/
def destOf : Instr → Option Operand
  | .set a _ | .pop a | .eq a _ _ | .gt a _ _ | .add a _ _ | .mult a _ _ | .mod a _ _
  | .and a _ _ | .or a _ _ | .not a _ | .rmem a _ | .inp a => some a
  | .halt | .push _ | .jmp _ | .jt _ _ | .jf _ _ | .wmem _ _ | .call _ | .ret | .out _
  | .noop => none

/-- The memory address an instruction stores to in `s`, if it stores to memory (20_memory.md
R51): a literal destination, or the target of wmem. -/
def storeAddress (i : Instr) (s : State) : Option Nat :=
  match i with
  | .wmem a _ => some (valueOf s a).toNat
  | .halt | .set _ _ | .push _ | .pop _ | .eq _ _ _ | .gt _ _ _ | .jmp _ | .jt _ _ | .jf _ _
  | .add _ _ _ | .mult _ _ _ | .mod _ _ _ | .and _ _ _ | .or _ _ _ | .not _ _ | .rmem _ _
  | .call _ | .ret | .out _ | .inp _ | .noop => (destOf i).bind storedAt

/-- The instructions that use the stack (10_state.md R33). -/
def usesStack : Instr → Bool
  | .push _ | .pop _ | .call _ | .ret => true
  | .halt | .set _ _ | .eq _ _ _ | .gt _ _ _ | .jmp _ | .jt _ _ | .jf _ _ | .add _ _ _
  | .mult _ _ _ | .mod _ _ _ | .and _ _ _ | .or _ _ _ | .not _ _ | .rmem _ _ | .wmem _ _
  | .out _ | .inp _ | .noop => false

/-! ### The decode procedure in the spec's words -/

/-- The kind of an operand position (30_encoding.md R86). -/
inductive OperandKind where
  /-- A value operand. -/
  | V
  /-- A destination operand. -/
  | D
  deriving DecidableEq, Repr

open OperandKind in
/-- The operand kinds of each opcode, in order, `none` above 21 (R86, R88). -/
def kindsOf : Nat → Option (List OperandKind)
  | 0 | 18 | 21 => some []
  | 2 | 6 | 17 | 19 => some [V]
  | 3 | 20 => some [D]
  | 7 | 8 | 16 => some [V, V]
  | 1 | 14 | 15 => some [D, V]
  | 4 | 5 | 9 | 10 | 11 | 12 | 13 => some [D, V, V]
  | _ => none

/-- The loop of R95 over the operand words from address `a` on: for each, left to right, the
fetch, the operand word, the literal destination. -/
def specOperands (s : State) : List OperandKind → Nat → Except Raised (List Word)
  | [], _ => .ok []
  | k :: ks, a =>
    if s.params.memWords ≤ a then .error ⟨.addressOutOfRange, BitVec.ofNat 16 a⟩
    else if 32775 < (s.word a).toNat then .error ⟨.invalidOperand, s.word a⟩
    else if k = .D ∧ (s.word a).toNat ≤ 32767 ∧ s.params.memWords ≤ (s.word a).toNat then
      .error ⟨.addressOutOfRange, s.word a⟩
    else
      match specOperands s ks (a + 1) with
      | .error e => .error e
      | .ok ws => .ok (s.word a :: ws)

/-- `Decode(A)` of R95 for A = pc: the words of the instruction, or the fault of the first
check that fails. -/
def specDecode (s : State) : Except Raised (List Word) :=
  if s.params.memWords ≤ s.pc.toNat then .error ⟨.addressOutOfRange, s.pc⟩
  else
    match kindsOf (s.word s.pc.toNat).toNat with
    | none => .error ⟨.invalidOpcode, s.word s.pc.toNat⟩
    | some ks =>
      match specOperands s ks (s.pc.toNat + 1) with
      | .error e => .error e
      | .ok ws => .ok (s.word s.pc.toNat :: ws)

end Sys2Proof.Machine
end

