-- ==== Sys2Proof/Certificates/Slice0/Obligations.lean ====
section
/-!
DEFINITION. The statements about the machine. Each docstring names the rule of spec/ it
formalises. Statements about an instruction are about `exec`, which takes the state with pc at
the instruction's opcode word (DESIGN CHOICE, log entry 8); `StepRunsTheInstructionAtPc`
carries them to a step. The faults of decoding, which the instruction rules call "the decode
faults" and do not repeat, are stated once, in `DecodeIsTheSpecProcedure` and
`FailedDecodeTakesItsFault`. Where a statement reads back a word just written it assumes the
memory's canonical form (log entry 4), which every step keeps (`StepKeepsMemoryCanonical`).
-/

open Sys2Proof Sys2Proof.Machine

/-! ### Encoding and decoding -/

/-- 30_encoding.md R81, R83, R88, R95: decoding the words of a well-formed instruction gives it
back, whatever follows them. -/
def Obligations.DecodeEncodeRoundTrip : Prop :=
  ∀ (memWords : Nat) (i : Instr) (rest : List Word), i.wellFormed memWords = true →
    decode memWords (encode i ++ rest) = .ok i

/-- R82, R91: every word has one meaning. What decodes to an instruction begins with exactly
that instruction's words, and the instruction is well formed. -/
def Obligations.DecodedWordsAreTheEncoding : Prop :=
  ∀ (memWords : Nat) (ws : List Word) (i : Instr), decode memWords ws = .ok i →
    (∃ rest, ws = encode i ++ rest) ∧ i.wellFormed memWords = true

/-- Words written out in the spec's examples decode to the instructions they stand for:
40_data_movement.md, 41_alu.md, 42_control.md, 43_io.md. -/
def Obligations.SpecExampleWordsDecode : Prop :=
  decode 32768 [1, 32769, 65] = .ok (.set (.reg 1) (.lit 65)) ∧
  decode 32768 [16, 32768, 32769] = .ok (.wmem (.reg 0) (.reg 1)) ∧
  decode 32768 [9, 32768, 32767, 5] = .ok (.add (.reg 0) (.lit 32767) (.lit 5)) ∧
  decode 32768 [14, 32768, 21845] = .ok (.not (.reg 0) (.lit 21845)) ∧
  decode 32768 [7, 32768, 20] = .ok (.jt (.reg 0) (.lit 20)) ∧
  decode 32768 [17, 30] = .ok (.call (.lit 30)) ∧
  decode 32768 [19, 32768] = .ok (.out (.reg 0)) ∧
  decode 32768 [20, 32771] = .ok (.inp (.reg 3)) ∧
  decode 32768 [1, 32775, 9, 0] = .ok (.set (.reg 7) (.lit 9)) ∧
  decode 32768 [1, 32776, 5] = .error (.invalidOperand 32776) ∧
  decode 32768 [32768] = .error (.invalidOpcode 32768)

/-- R83, R84, R85: the three classes of operand word, what each is as a value and as a
destination. -/
def Obligations.OperandWordsResolve : Prop :=
  ∀ (s : State) (w v : Word),
    (w.toNat ≤ 32767 → ∃ o, operandOf w = some o ∧ valueOf s o = w ∧
      writeDest s o v = memWrite s w v) ∧
    (32768 ≤ w.toNat → w.toNat ≤ 32775 → ∃ r : Reg, r.val = w.toNat - 32768 ∧
      operandOf w = some (.reg r) ∧ valueOf s (.reg r) = s.reg r ∧
      writeDest s (.reg r) v = .ok (s.setReg r v)) ∧
    (32776 ≤ w.toNat → operandOf w = none)

/-- R95 (and the order of 60_exceptions.md R244, steps 1 to 3): the decoder is the spec's
procedure. It gives the instruction whose words that procedure fetched, or the fault of the
first check that fails there. -/
def Obligations.DecodeIsTheSpecProcedure : Prop :=
  ∀ s : State,
    (∀ ws, specDecode s = .ok ws → ∃ i, decodeAt s = .ok i ∧ encode i = ws) ∧
    (∀ f, specDecode s = .error f → ∃ e, decodeAt s = .error e ∧ decodeFault s.pc e = f)

/-- R95, 60_exceptions.md R242: when a check of decoding fails, the step takes the fault of the
first that fails, precisely. -/
def Obligations.FailedDecodeTakesItsFault : Prop :=
  ∀ (s : State) (f : Raised), HostQuiet s → s.run = .run → specDecode s = .error f →
    ∃ t, step s = .next t ∧ FaultsWith f.kind f.info s.ticked t

/-- 10_state.md R29: pc never wraps. An instruction that decodes ends inside memory, and pc
moved past it is the exact sum, at most MEM_WORDS. -/
def Obligations.PcNeverWraps : Prop :=
  ∀ (s : State) (i : Instr), s.params.wf = true → decodeAt s = .ok i →
    s.pc.toNat + (encode i).length ≤ s.params.memWords ∧
    (s.pc + BitVec.ofNat 16 (encode i).length).toNat = s.pc.toNat + (encode i).length

/-- R89: an opcode word of 22 or more faults, and nothing else changes. -/
def Obligations.InvalidOpcodeFaults : Prop :=
  ∀ s : State, HostQuiet s → s.run = .run → s.pc.toNat < s.params.memWords →
    21 < (s.word s.pc.toNat).toNat →
    ∃ t, step s = .next t ∧ FaultsWith .invalidOpcode (s.word s.pc.toNat) s.ticked t

/-- R95, R197: a fetch at or beyond MEM_WORDS faults with pc as both fault_pc and
fault_info. -/
def Obligations.FetchOutsideMemoryFaults : Prop :=
  ∀ s : State, HostQuiet s → s.run = .run → s.params.memWords ≤ s.pc.toNat →
    ∃ t, step s = .next t ∧ FaultsWith .addressOutOfRange s.pc s.ticked t

/-- R96: with a well-formed instruction at pc, a step in RUN with the host quiet is `exec` of
that instruction; around it the step only takes the event off the host's schedule. -/
def Obligations.StepRunsTheInstructionAtPc : Prop :=
  ∀ (s : State) (i : Instr), HostQuiet s → s.run = .run →
    i.wellFormed s.params.memWords = true → StandsAtPc i s →
    decodeAt s = .ok i ∧ step s = exec i s.ticked

/-! ### Data movement -/

/-- 40_data_movement.md R120. -/
def Obligations.SetCopiesTheValue : Prop :=
  ∀ (s : State) (a b : Operand), Memory.wf s.mem = true →
    (Instr.set a b).wellFormed s.params.memWords = true →
    encode (.set a b) = [1, a.word, b.word] ∧
    ∃ t, exec (.set a b) s = .next t ∧ WritesDest a (valueOf s b) 3 s t

/-- R121: push, and StackOverflow at a bounded capacity. -/
def Obligations.PushPutsTheValueOnTop : Prop :=
  ∀ (s : State) (a : Operand),
    encode (.push a) = [2, a.word] ∧
    (s.params.stackCapacity ≠ some s.sp →
      ∃ t, exec (.push a) s = .next t ∧
        OnlyStackAndPc (valueOf s a :: s.stack) (s.pc + 2) s t ∧
        t.sp = s.sp + 1 ∧ t.cell s.sp = some (valueOf s a)) ∧
    (s.params.stackCapacity = some s.sp →
      ∃ t, exec (.push a) s = .next t ∧ FaultsWith .stackOverflow 0 s t)

/-- R122: pop, and StackUnderflow on an empty stack. -/
def Obligations.PopTakesTheTop : Prop :=
  ∀ (s : State) (a : Operand),
    encode (.pop a) = [3, a.word] ∧
    (∀ v rest, s.stack = v :: rest → Memory.wf s.mem = true →
      (Instr.pop a).wellFormed s.params.memWords = true →
      ∃ t, exec (.pop a) s = .next t ∧ WritesDest a v 2 (s.setStack rest) t ∧
        t.sp + 1 = s.sp) ∧
    (s.stack = [] → ∃ t, exec (.pop a) s = .next t ∧ FaultsWith .stackUnderflow 0 s t)

/-- R123: rmem, and AddressOutOfRange. -/
def Obligations.RmemLoadsAWord : Prop :=
  ∀ (s : State) (a b : Operand),
    encode (.rmem a b) = [15, a.word, b.word] ∧
    ((valueOf s b).toNat < s.params.memWords → Memory.wf s.mem = true →
      (Instr.rmem a b).wellFormed s.params.memWords = true →
      ∃ t, exec (.rmem a b) s = .next t ∧
        WritesDest a (s.word (valueOf s b).toNat) 3 s t) ∧
    (s.params.memWords ≤ (valueOf s b).toNat →
      ∃ t, exec (.rmem a b) s = .next t ∧
        FaultsWith .addressOutOfRange (valueOf s b) s t)

/-- R124: wmem, and AddressOutOfRange. -/
def Obligations.WmemStoresAWord : Prop :=
  ∀ (s : State) (a b : Operand),
    encode (.wmem a b) = [16, a.word, b.word] ∧
    ((valueOf s a).toNat < s.params.memWords → Memory.wf s.mem = true →
      ∃ t, exec (.wmem a b) s = .next t ∧
        t.word (valueOf s a).toNat = valueOf s b ∧
        (∀ x, x ≠ (valueOf s a).toNat → t.word x = s.word x) ∧
        t.pc = s.pc + 3 ∧ SameRegs s t ∧ t.stack = s.stack ∧
        SameStatus s t ∧ SameStreams s t ∧ SameOutside s t) ∧
    (s.params.memWords ≤ (valueOf s a).toNat →
      ∃ t, exec (.wmem a b) s = .next t ∧
        FaultsWith .addressOutOfRange (valueOf s a) s t)

/-! ### ALU -/

/-- 41_alu.md R150, R163 (for eq). -/
def Obligations.EqWritesOneOrZero : Prop :=
  ∀ (s : State) (a b c : Operand), Memory.wf s.mem = true →
    (Instr.eq a b c).wellFormed s.params.memWords = true →
    encode (.eq a b c) = [4, a.word, b.word, c.word] ∧
    ∃ t, exec (.eq a b c) s = .next t ∧
      WritesDest a (if valueOf s b = valueOf s c then 1 else 0) 4 s t

/-- R151, R163 (for gt): unsigned and strict. -/
def Obligations.GtComparesUnsigned : Prop :=
  ∀ (s : State) (a b c : Operand), Memory.wf s.mem = true →
    (Instr.gt a b c).wellFormed s.params.memWords = true →
    encode (.gt a b c) = [5, a.word, b.word, c.word] ∧
    ∃ t, exec (.gt a b c) s = .next t ∧
      WritesDest a (if (valueOf s b).toNat > (valueOf s c).toNat then 1 else 0) 4 s t

/-- R152, R159: the exact sum, reduced mod 32768. -/
def Obligations.AddWritesTheReducedSum : Prop :=
  ∀ (s : State) (a b c : Operand), Memory.wf s.mem = true →
    (Instr.add a b c).wellFormed s.params.memWords = true →
    encode (.add a b c) = [9, a.word, b.word, c.word] ∧
    ∃ t r, exec (.add a b c) s = .next t ∧ WritesDest a r 4 s t ∧
      r.toNat = ((valueOf s b).toNat + (valueOf s c).toNat) % 32768

/-- R153, R159: the exact product, reduced mod 32768. -/
def Obligations.MultWritesTheReducedProduct : Prop :=
  ∀ (s : State) (a b c : Operand), Memory.wf s.mem = true →
    (Instr.mult a b c).wellFormed s.params.memWords = true →
    encode (.mult a b c) = [10, a.word, b.word, c.word] ∧
    ∃ t r, exec (.mult a b c) s = .next t ∧ WritesDest a r 4 s t ∧
      r.toNat = ((valueOf s b).toNat * (valueOf s c).toNat) % 32768

/-- R154, R164: the unsigned remainder, and DivideByZero. -/
def Obligations.ModWritesTheRemainder : Prop :=
  ∀ (s : State) (a b c : Operand),
    encode (.mod a b c) = [11, a.word, b.word, c.word] ∧
    (valueOf s c ≠ 0 → Memory.wf s.mem = true →
      (Instr.mod a b c).wellFormed s.params.memWords = true →
      ∃ t r q, exec (.mod a b c) s = .next t ∧ WritesDest a r 4 s t ∧
        r.toNat < (valueOf s c).toNat ∧
        (valueOf s b).toNat = q * (valueOf s c).toNat + r.toNat) ∧
    (valueOf s c = 0 → ∃ t, exec (.mod a b c) s = .next t ∧ FaultsWith .divideByZero 0 s t)

/-- R155, R160: bit by bit, not reduced. -/
def Obligations.AndWritesTheConjunction : Prop :=
  ∀ (s : State) (a b c : Operand), Memory.wf s.mem = true →
    (Instr.and a b c).wellFormed s.params.memWords = true →
    encode (.and a b c) = [12, a.word, b.word, c.word] ∧
    ∃ t r, exec (.and a b c) s = .next t ∧ WritesDest a r 4 s t ∧
      ∀ k, r.getLsbD k = ((valueOf s b).getLsbD k && (valueOf s c).getLsbD k)

/-- R156, R160: bit by bit, not reduced. -/
def Obligations.OrWritesTheDisjunction : Prop :=
  ∀ (s : State) (a b c : Operand), Memory.wf s.mem = true →
    (Instr.or a b c).wellFormed s.params.memWords = true →
    encode (.or a b c) = [13, a.word, b.word, c.word] ∧
    ∃ t r, exec (.or a b c) s = .next t ∧ WritesDest a r 4 s t ∧
      ∀ k, r.getLsbD k = ((valueOf s b).getLsbD k || (valueOf s c).getLsbD k)

/-- R157, R161: the 15-bit complement; bit 15 of the operand has no effect, and bit 15 of the
result is 0. -/
def Obligations.NotWritesTheComplement : Prop :=
  ∀ (s : State) (a b : Operand), Memory.wf s.mem = true →
    (Instr.not a b).wellFormed s.params.memWords = true →
    encode (.not a b) = [14, a.word, b.word] ∧
    ∃ t r, exec (.not a b) s = .next t ∧ WritesDest a r 3 s t ∧
      (∀ k, k < 15 → r.getLsbD k = !(valueOf s b).getLsbD k) ∧ r.getLsbD 15 = false

/-- R162, the first sentence: from operand values below 32768 the ALU computes a value below
32768, whenever it completes. -/
def Obligations.AluKeepsValuesNarrow : Prop :=
  ∀ (s t : State) (a b c : Operand), Memory.wf s.mem = true → s.run = .run →
    t.run = .run → (valueOf s b).toNat < 32768 → (valueOf s c).toNat < 32768 →
    (∀ op ∈ [Instr.eq, Instr.gt, Instr.add, Instr.mult, Instr.mod, Instr.and, Instr.or],
      exec (op a b c) s = .next t → (destWord t a).toNat < 32768) ∧
    (exec (.not a b) s = .next t → (destWord t a).toNat < 32768)

/-- The source's "`not(not(x)) == x`" (R157, 95_test_vectors.md L1-3), through a register. -/
def Obligations.NotTwiceGivesTheValueBack : Prop :=
  ∀ (s t u : State) (b : Operand) (r q : Reg), (valueOf s b).toNat < 32768 →
    exec (.not (.reg r) b) s = .next t → exec (.not (.reg q) (.reg r)) t = .next u →
    u.reg q = valueOf s b

/-! ### Control transfer -/

/-- 42_control.md R190. -/
def Obligations.HaltStopsTheBlock : Prop :=
  ∀ s : State, encode .halt = [0] ∧ ∃ t, exec .halt s = .next t ∧ HaltsWith 0 s t

/-- R191: any 16-bit target, unchecked. -/
def Obligations.JmpGoesToTheValue : Prop :=
  ∀ (s : State) (a : Operand), encode (.jmp a) = [6, a.word] ∧
    ∃ t, exec (.jmp a) s = .next t ∧ OnlyPc (valueOf s a) s t

/-- R192. -/
def Obligations.JtJumpsWhenNonZero : Prop :=
  ∀ (s : State) (a b : Operand), encode (.jt a b) = [7, a.word, b.word] ∧
    ∃ t, exec (.jt a b) s = .next t ∧
      OnlyPc (if valueOf s a ≠ 0 then valueOf s b else s.pc + 3) s t

/-- R193, with its corner case: of `jt a, b` and `jf a, b` from one state exactly one goes to
the target, and the other goes on to the next instruction. -/
def Obligations.JfJumpsWhenZero : Prop :=
  ∀ (s : State) (a b : Operand), encode (.jf a b) = [8, a.word, b.word] ∧
    ∃ t u, exec (.jf a b) s = .next t ∧ exec (.jt a b) s = .next u ∧
      OnlyPc (if valueOf s a = 0 then valueOf s b else s.pc + 3) s t ∧
      ((t.pc = valueOf s b ∧ u.pc = s.pc + 3) ∨ (t.pc = s.pc + 3 ∧ u.pc = valueOf s b))

/-- R194: the target is read before the push, and the return address is A + 2. -/
def Obligations.CallPushesTheReturnAddress : Prop :=
  ∀ (s : State) (a : Operand),
    encode (.call a) = [17, a.word] ∧
    (s.params.stackCapacity ≠ some s.sp →
      ∃ t, exec (.call a) s = .next t ∧
        OnlyStackAndPc ((s.pc + 2) :: s.stack) (valueOf s a) s t ∧
        t.sp = s.sp + 1 ∧ t.cell s.sp = some (s.pc + 2)) ∧
    (s.params.stackCapacity = some s.sp →
      ∃ t, exec (.call a) s = .next t ∧ FaultsWith .stackOverflow 0 s t)

/-- R195: ret goes to the popped word; on an empty stack it halts with halt_reason 1. -/
def Obligations.RetPopsPcOrHalts : Prop :=
  ∀ s : State, encode .ret = [18] ∧
    (∀ v rest, s.stack = v :: rest →
      ∃ t, exec .ret s = .next t ∧ OnlyStackAndPc rest v s t ∧ t.sp + 1 = s.sp) ∧
    (s.stack = [] → ∃ t, exec .ret s = .next t ∧ HaltsWith 1 s t)

/-- R196. -/
def Obligations.NoopOnlyMovesPc : Prop :=
  ∀ s : State, encode .noop = [21] ∧
    ∃ t, exec .noop s = .next t ∧ OnlyPc (s.pc + 1) s t

/-- R200: a call to an address that holds `ret` comes back to the instruction after the call,
with the stack, registers and memory as they were. -/
def Obligations.CallThenRetReturns : Prop :=
  ∀ (s : State) (a : Operand), s.run = .run → s.schedule = [] →
    s.params.stackCapacity ≠ some s.sp → StandsAtPc (.call a) s →
    (valueOf s a).toNat < s.params.memWords → s.word (valueOf s a).toNat = 18 →
    ∃ t u, step s = .next t ∧ step t = .next u ∧ OnlyPc (s.pc + 2) s u

/-! ### Input and output -/

/-- 43_io.md R220: the full word is sent, and nothing else changes but pc. -/
def Obligations.OutSendsTheWord : Prop :=
  ∀ (s : State) (a : Operand), encode (.out a) = [19, a.word] ∧
    ∃ t, exec (.out a) s = .next t ∧ t.outputs = s.outputs ++ [valueOf s a] ∧
      t.pc = s.pc + 2 ∧ SameRegs s t ∧ SameMemory s t ∧ t.stack = s.stack ∧
      SameStatus s t ∧ t.taken = s.taken ∧ t.offered = s.offered ∧ SameOutside s t

/-- R221: `in` begins to wait with pc at itself and nothing else changed; waiting, it takes
the first word offered, writes it to its destination, and goes on in RUN. That the words a host
offers stand in a queue, that the block takes the FIRST of them in a step of its own, and that
both halves are one meaning told apart by the run state, is the model's choice (DESIGN CHOICE,
log entry 18); R221 speaks of one event InputWord(v). -/
def Obligations.InWaitsThenTakesTheWord : Prop :=
  ∀ (s : State) (a : Operand), encode (.inp a) = [20, a.word] ∧
    (s.run = .run → ∃ t, exec (.inp a) s = .next t ∧ t.run = .waitIn ∧ t.pc = s.pc ∧
      SameRegs s t ∧ SameMemory s t ∧ t.stack = s.stack ∧ t.haltReason = s.haltReason ∧
      t.faultCode = s.faultCode ∧ t.faultPc = s.faultPc ∧ t.faultInfo = s.faultInfo ∧
      SameStreams s t ∧ SameOutside s t) ∧
    (∀ v rest, s.run = .waitIn → s.offered = v :: rest → Memory.wf s.mem = true →
      (Instr.inp a).wellFormed s.params.memWords = true →
      ∃ t, exec (.inp a) s = .next t ∧
        WritesDest a v 2 ((s.setRun .run).takeOffer v rest) t)

/-- R221, R223, R225 as steps of the block: waiting at an `in`, it takes one offered word and
goes on; with no word offered it waits on, unchanged. The queue of offers is the model's choice
(DESIGN CHOICE, log entry 18), and so is that a block which waits on still takes a step, which
leaves it as it is (DEDUCED, log entry 6). -/
def Obligations.WaitingBlockTakesOneWordOrWaits : Prop :=
  ∀ (s : State) (a : Operand), s.run = .waitIn → HostQuiet s → StandsAtPc (.inp a) s →
    (Instr.inp a).wellFormed s.params.memWords = true → Memory.wf s.mem = true →
    (∀ v rest, s.offered = v :: rest → ∃ t, step s = .next t ∧
      WritesDest a v 2 ((s.ticked.setRun .run).takeOffer v rest) t) ∧
    (s.offered = [] → step s = .next s.ticked)

/-- R222, R270: words are sent by `out` alone, one each, in program order, and none is taken
back. Only a Reset or the start of a run puts the words sent so far behind it (R280; DESIGN
CHOICE, log entry 19). -/
def Obligations.OnlyOutSendsWords : Prop :=
  ∀ s t : State, step s = .next t →
    (t.outputs = s.outputs ∧ t.sentBefore = s.sentBefore) ∨
    (t.outputs = [] ∧ t.sentBefore = s.sentBefore ++ s.outputs ∧
      (nextEvent s = .reset ∨ ∃ bytes, StartsRun bytes s t)) ∨
    ∃ a, s.run = .run ∧ HostQuiet s ∧ decodeAt s = .ok (.out a) ∧
      t.outputs = s.outputs ++ [valueOf s a] ∧ t.sentBefore = s.sentBefore

/-- R223, R226, R247: the block takes an input word only in WAIT_IN, one at a time, the first
offered; every other offer stays with the host. An offer changes nothing of the block, in
whatever run state: status, registers, pc, stack, memory and the words sent are as before. That
offers stand in a queue is the model's choice (DESIGN CHOICE, log entry 18). -/
def Obligations.InputIsTakenOnlyWhileWaiting : Prop :=
  ∀ s t : State, step s = .next t →
    match nextEvent s with
    | .offer v => t.offered = s.offered ++ [v] ∧ observe t = observe s ∧ t.taken = s.taken ∧
        t.sentBefore = s.sentBefore ∧ t.params = s.params ∧ t.schedule = s.schedule.tail
    | .quiet => (t.offered = s.offered ∧ t.taken = s.taken) ∨
        (s.run = .waitIn ∧ t.run = .run ∧
          ∃ v, s.offered = v :: t.offered ∧ t.taken = s.taken ++ [v])
    | .reset => t.offered = s.offered
    | .loadImage _ => t.offered = s.offered

/-! ### Reset and load -/

/-- 70_reset_and_hazards.md R270: Reset in any state. (Of memory R270 says nothing, and neither
does this.) The words sent are those of `sentBefore` and `outputs` together. -/
def Obligations.ResetFromAnyState : Prop :=
  ∀ (s : State) (rest : List HostEvent), s.schedule = .reset :: rest →
    ∃ t, step s = .next t ∧ (∀ r, t.reg r = 0) ∧ t.pc = 0 ∧ t.stack = [] ∧ t.sp = 0 ∧
      t.run = .idle ∧ t.haltReason = 0 ∧ t.faultCode = 0 ∧ t.faultPc = 0 ∧
      t.faultInfo = 0 ∧ t.allSent = s.allSent ∧ t.offered = s.offered ∧
      t.params = s.params ∧ t.schedule = rest

/-- 20_memory.md R62, R63, R64 (and R58): LoadImage in IDLE lays the image out little-endian
from address 0 with 0 beyond it and starts the block, or is refused and changes the status
alone; in every other state it is ignored. A run starts with the load that succeeds (R280). That
State holds the words sent and taken in the present run apart from the words sent before it, so
that `outputs` and `taken` start empty here and `allSent` is as before, is the model's choice
(DESIGN CHOICE, log entry 19). -/
def Obligations.LoadImageStartsTheBlock : Prop :=
  ∀ (s : State) (bytes : List Byte) (rest : List HostEvent),
    s.schedule = .loadImage bytes :: rest →
    (s.run = .idle → bytes.length ≠ 0 → bytes.length % 2 = 0 →
      bytes.length / 2 ≤ s.params.memWords →
      ∃ t, step s = .next t ∧
        (∀ i, i < bytes.length / 2 → (t.word i).toNat =
          (bytes.getD (2 * i) 0).toNat + 256 * (bytes.getD (2 * i + 1) 0).toNat) ∧
        (∀ i, bytes.length / 2 ≤ i → t.word i = 0) ∧
        (∀ r, t.reg r = 0) ∧ t.pc = 0 ∧ t.stack = [] ∧ t.run = .run ∧ t.haltReason = 0 ∧
        t.faultCode = 0 ∧ t.faultPc = 0 ∧ t.faultInfo = 0 ∧
        t.allSent = s.allSent ∧ t.outputs = [] ∧ t.taken = [] ∧ t.offered = s.offered ∧
        t.params = s.params ∧ t.schedule = rest) ∧
    (s.run = .idle → (bytes.length = 0 ∨ bytes.length % 2 = 1 ∨
        s.params.memWords < bytes.length / 2) →
      ∃ t, step s = .next t ∧ t.run = .loadFailed ∧ t.faultCode = 7 ∧ t.faultPc = 0 ∧
        t.faultInfo = 0 ∧ t.haltReason = s.haltReason ∧ SameRegs s t ∧ t.pc = s.pc ∧
        t.stack = s.stack ∧ SameMemory s t ∧
        SameStreams s t ∧ t.sentBefore = s.sentBefore ∧ t.params = s.params ∧
        t.schedule = rest) ∧
    (s.run ≠ .idle → step s = .next s.ticked)

/-- 30_encoding.md R101: in the three terminal states nothing changes until Reset. -/
def Obligations.TerminalStatesStay : Prop :=
  ∀ s : State, s.run.terminal = true → nextEvent s ≠ .reset →
    ∃ t, step s = .next t ∧ observe t = observe s ∧ t.params = s.params

/-! ### The status register and the faults -/

/-- 10_state.md R37, R38, 60_exceptions.md R240: the numbers the host reads. The status read
gives `state` 0 to 5 by the run state and the other four fields as they stand, and the fault
kinds have the codes 1 to 7. -/
def Obligations.StatusAndFaultNumbers : Prop :=
  (∀ s : State,
    (readStatus s).state = (match s.run with
      | .idle => 0
      | .run => 1
      | .waitIn => 2
      | .halted => 3
      | .faulted => 4
      | .loadFailed => 5) ∧
    (readStatus s).haltReason = s.haltReason ∧ (readStatus s).faultCode = s.faultCode ∧
    (readStatus s).faultPc = s.faultPc ∧ (readStatus s).faultInfo = s.faultInfo) ∧
  ∀ kind : FaultKind, kind.code = (match kind with
    | .invalidOpcode => 1
    | .invalidOperand => 2
    | .stackUnderflow => 3
    | .divideByZero => 4
    | .addressOutOfRange => 5
    | .stackOverflow => 6
    | .loadError => 7)

/-- 60_exceptions.md R242, 30_encoding.md R99: whatever instruction faults, the fault is
precise. -/
def Obligations.FaultsArePrecise : Prop :=
  ∀ s t : State, s.run = .run → HostQuiet s → step s = .next t → t.run = .faulted →
    ∃ kind info, kind ≠ FaultKind.loadError ∧ FaultsWith kind info s.ticked t

/-- 60_exceptions.md R241, the execute stage: the only instructions that fault there, the
condition under which each does, and the fault. -/
def Obligations.OnlyNamedInstructionsFault : Prop :=
  ∀ (i : Instr) (s t : State), i.wellFormed s.params.memWords = true → s.run = .run →
    exec i s = .next t → t.run = .faulted →
    (∃ a, i = .pop a ∧ s.stack = [] ∧ FaultsWith .stackUnderflow 0 s t) ∨
    (∃ a b c, i = .mod a b c ∧ valueOf s c = 0 ∧ FaultsWith .divideByZero 0 s t) ∨
    (∃ a b, i = .rmem a b ∧ s.params.memWords ≤ (valueOf s b).toNat ∧
      FaultsWith .addressOutOfRange (valueOf s b) s t) ∨
    (∃ a b, i = .wmem a b ∧ s.params.memWords ≤ (valueOf s a).toNat ∧
      FaultsWith .addressOutOfRange (valueOf s a) s t) ∨
    (∃ a, (i = .push a ∨ i = .call a) ∧ s.params.stackCapacity = some s.sp ∧
      FaultsWith .stackOverflow 0 s t)

/-! ### Whole-machine rules -/

/-- 10_state.md R26, R28: an instruction that completes and is no transfer leaves pc at
A + 1 + arity. -/
def Obligations.PcMovesPastTheInstruction : Prop :=
  ∀ (i : Instr) (s t : State), isTransfer i = false → s.run = .run → exec i s = .next t →
    t.run = .run ∨ t.run = .halted → t.pc = s.pc + BitVec.ofNat 16 (encode i).length

/-- 10_state.md R23, R35, 20_memory.md R51, R52: an instruction changes no register but its
destination, no word of memory but the one it stores to, and the stack only if it is push, pop,
call or ret. -/
def Obligations.OnlyNamedLocationsChange : Prop :=
  ∀ (i : Instr) (s t : State), exec i s = .next t →
    (∀ r, destOf i ≠ some (.reg r) → t.reg r = s.reg r) ∧
    (∀ x, storeAddress i s ≠ some x → t.word x = s.word x) ∧
    (usesStack i = false → t.stack = s.stack)

/-- 20_memory.md R70: the instruction right after a wmem can be one that the wmem just wrote;
the next fetch at the stored address sees the stored word. -/
def Obligations.FetchSeesThePrecedingStore : Prop :=
  ∀ (s : State) (a b : Operand), s.params.wf = true → Memory.wf s.mem = true →
    valueOf s a = s.pc + 3 → s.pc.toNat + 3 < s.params.memWords →
    ∃ t, exec (.wmem a b) s = .next t ∧
      decodeAt t = decode s.params.memWords
        (valueOf s b :: fetchWords s 3 (s.pc.toNat + 4))

/-- 30_encoding.md R97: the transitions of the state machine, whatever the event. Two rows are
in the model's form: the row InputWord is two steps, the host's offer and the taking of the word
in a quiet step (DESIGN CHOICE, log entry 18), and where the block has no step of its own a
quiet step leaves the run state as it is (DEDUCED, log entry 6). -/
def Obligations.StateMachineTransitions : Prop :=
  ∀ s t : State, step s = .next t →
    match nextEvent s with
    | .reset => t.run = .idle
    | .loadImage bytes =>
      (s.run = .idle → t.run = if bytes.length ≠ 0 ∧ bytes.length % 2 = 0 ∧
        bytes.length / 2 ≤ s.params.memWords then .run else .loadFailed) ∧
      (s.run ≠ .idle → t.run = s.run)
    | .offer _ => t.run = s.run
    | .quiet =>
      (s.run = .run →
        match decodeAt s with
        | .error _ => t.run = .faulted
        | .ok .halt => t.run = .halted ∧ t.haltReason = 0
        | .ok .ret => if s.stack = [] then t.run = .halted ∧ t.haltReason = 1
            else t.run = .run
        | .ok (.inp _) => t.run = .waitIn ∧ t.pc = s.pc
        | .ok _ => t.run = .run ∨ t.run = .faulted) ∧
      (s.run = .waitIn → t.run = if s.offered = [] then .waitIn else .run) ∧
      (s.run ≠ .run → s.run ≠ .waitIn → t.run = s.run)

/-- 60_exceptions.md R248: the two normal stops, their halt_reason, and fault_code left as it
is. -/
def Obligations.OnlyHaltAndEmptyRetHalt : Prop :=
  ∀ s t : State, step s = .next t → s.run ≠ .halted → t.run = .halted →
    s.run = .run ∧ HostQuiet s ∧ t.faultCode = s.faultCode ∧
    ((decodeAt s = .ok .halt ∧ t.haltReason = 0) ∨
      (decodeAt s = .ok .ret ∧ s.stack = [] ∧ t.haltReason = 1))

/-- The words already sent are never read: with another history of words sent, before this run
and in it, the step is the same, and the same words are appended to both histories (R222). -/
def Obligations.SentWordsAreNeverRead : Prop :=
  ∀ (s t : State) (before others : List Word), step s = .next t →
    ∃ new u, t.allSent = s.allSent ++ new ∧
      step { s with sentBefore := before, outputs := others } = .next u ∧
      u.allSent = before ++ others ++ new ∧
      u = { t with sentBefore := u.sentBefore, outputs := u.outputs }

/-- R223: in RUN the block does not see what the host offers. -/
def Obligations.OffersAreUnseenInRun : Prop :=
  ∀ (s t : State) (others : List Word), s.run = .run → HostQuiet s → step s = .next t →
    step { s with offered := others } = .next { t with offered := others }

/-! ### Runs -/

/-- 70_reset_and_hazards.md R280, 30_encoding.md R98: the observation of a run is fixed by the
image and by the words it took. Two runs of one image, whenever and however their hosts offer
words, that end having taken the same input words end with the same observation. -/
def Obligations.InputFixesTheObservation : Prop :=
  ∀ (bytes : List Byte) (s s' t t' : State) (inputs : List Word) (o o' : Observation),
    s'.params = s.params → StartsRun bytes s t → StartsRun bytes s' t' →
    EndsWith t inputs o → EndsWith t' inputs o' → o' = o

/-- R225, R280: the block waits for ever exactly when it waits, no word is on offer, and the
host will neither offer one nor assert Reset. -/
def Obligations.WaitsForeverWhenNoWordComes : Prop :=
  ∀ s : State, s.Inv →
    (StaysIn .waitIn s ↔ s.run = .waitIn ∧ s.offered = [] ∧
      ∀ e ∈ s.schedule, e ≠ .reset ∧ ∀ v, e ≠ .offer v)

/-- R279, R191 (95_test_vectors.md C-15): a jump to itself, with no Reset to come, stays in RUN
for ever, with no fault. -/
def Obligations.SelfJumpHangs : Prop :=
  ∀ (s : State) (a : Operand), s.run = .run → StandsAtPc (.jmp a) s → valueOf s a = s.pc →
    (∀ e ∈ s.schedule, e ≠ .reset) → StaysIn .run s

/-- R280: a run that is stuck on input or hangs does not end, whatever is observed. -/
def Obligations.StuckRunsAndHangsNeverEnd : Prop :=
  ∀ (s : State) (inputs : List Word) (o : Observation), StuckOnInput s ∨ Hangs s →
    ¬ EndsWith s inputs o

/-! ### Invariants -/

/-- 00_scope.md R5: the parameters are constants of the machine. (That they are held in State
is the model's choice, DESIGN CHOICE, log entry 1.) -/
def Obligations.ParametersNeverChange : Prop :=
  ∀ s t : State, step s = .next t → t.params = s.params

/-- Memory stays canonical and inside the address space (20_memory.md R50; that it is a list
in canonical form is the model's choice, DESIGN CHOICE, log entry 4). -/
def Obligations.StepKeepsMemoryCanonical : Prop :=
  ∀ s t : State, MemoryOk s → step s = .next t → MemoryOk t

/-- The whole invariant is kept: 10_state.md R34, R37, R38, R42, 20_memory.md R50. That the
words of a run stand in State is the model's choice (DESIGN CHOICE, log entry 19). -/
def Obligations.StepKeepsTheInvariant : Prop :=
  ∀ s t : State, s.Inv → step s = .next t → t.Inv

/-- The machine right after reset meets the invariant. -/
def Obligations.ResetMeetsTheInvariant : Prop := State.reset.Inv

/-- In a state that meets the invariant the machine always takes a step: no state that a run
reaches ends in the model's own Fault or Refusal (30_encoding.md R97). -/
def Obligations.InvariantStatesAlwaysStep : Prop :=
  ∀ s : State, s.Inv → ∃ t, step s = .next t
end

