-- ==== Sys2Proof/Laws/Decode.lean ====
section
/-!
SUPPORT. The laws of operand words and of the decoder's building blocks.
-/

namespace Sys2Proof

/-- An operand's word resolves to the operand (30_encoding.md R83). -/
@[simp] theorem operandOf_word (o : Operand) : operandOf o.word = some o := by
  cases o with
  | lit v =>
    have hv := v.isLt
    have hn : (v.setWidth 16).toNat = v.toNat := by rw [BitVec.toNat_setWidth]; omega
    have h15 : (v.setWidth 16).setWidth 15 = v := by
      apply BitVec.eq_of_toNat_eq
      rw [BitVec.toNat_setWidth, hn]
      omega
    rw [Operand.word, operandOf, if_pos (by omega), h15]
  | reg r =>
    revert r
    decide

/-- What resolves to an operand is that operand's word (R83). -/
theorem word_of_operandOf {w : Word} {o : Operand} (h : operandOf w = some o) : o.word = w := by
  have hw := w.isLt
  unfold operandOf at h
  split at h
  · cases h
    apply BitVec.eq_of_toNat_eq
    simp only [Operand.word, BitVec.toNat_setWidth]
    omega
  · split at h
    · cases h
      apply BitVec.eq_of_toNat_eq
      show (BitVec.ofNat 16 (32768 + (w.toNat - 32768) % 8)).toNat = w.toNat
      rw [BitVec.toNat_ofNat]
      omega
    · cases h

/-- An operand word is rejected exactly above 32775 (R83, R90). -/
theorem operandOf_none {w : Word} : operandOf w = none ↔ 32776 ≤ w.toNat := by
  unfold operandOf
  split
  · simp only [reduceCtorEq, false_iff]
    omega
  · split
    · simp only [reduceCtorEq, false_iff]
      omega
    · simp only [true_iff]
      omega

@[simp] theorem needV_word (j : Nat) (o : Operand) (rest : List Word)
    (k : Operand → List Word → Except DecodeError Instr) :
    needV j (o.word :: rest) k = k o rest := by
  simp [needV]

theorem needD_word {memWords : Nat} (j : Nat) {o : Operand} (rest : List Word)
    (k : Operand → List Word → Except DecodeError Instr) (h : o.destOk memWords = true) :
    needD memWords j (o.word :: rest) k = k o rest := by
  simp [needD, h]

/-- Everything a value operand can do when decoding succeeds. -/
theorem needV_ok {j : Nat} {ws : List Word}
    {k : Operand → List Word → Except DecodeError Instr} {i : Instr}
    (h : needV j ws k = .ok i) : ∃ o rest, ws = o.word :: rest ∧ k o rest = .ok i := by
  unfold needV at h
  split at h
  · cases h
  · rename_i w rest
    split at h
    · cases h
    · rename_i o ho
      exact ⟨o, rest, by rw [word_of_operandOf ho], h⟩

/-- Everything a destination operand can do when decoding succeeds. -/
theorem needD_ok {memWords j : Nat} {ws : List Word}
    {k : Operand → List Word → Except DecodeError Instr} {i : Instr}
    (h : needD memWords j ws k = .ok i) :
    ∃ o rest, ws = o.word :: rest ∧ o.destOk memWords = true ∧ k o rest = .ok i := by
  obtain ⟨o, rest, hw, hk⟩ := needV_ok h
  split at hk
  · rename_i hd
    exact ⟨o, rest, hw, hd, hk⟩
  · cases hk

/-! ### The five operand forms (30_encoding.md R86): all that decoding one can give -/

theorem formV_ok {ws : List Word} {mk : Operand → Instr} {i : Instr}
    (h : formV ws mk = .ok i) : ∃ a rest, ws = a.word :: rest ∧ i = mk a := by
  obtain ⟨a, r, hw, ha⟩ := needV_ok h
  exact ⟨a, r, hw, (Except.ok.inj ha).symm⟩

theorem formD_ok {memWords : Nat} {ws : List Word} {mk : Operand → Instr} {i : Instr}
    (h : formD memWords ws mk = .ok i) :
    ∃ a rest, ws = a.word :: rest ∧ a.destOk memWords = true ∧ i = mk a := by
  obtain ⟨a, r, hw, hd, ha⟩ := needD_ok h
  exact ⟨a, r, hw, hd, (Except.ok.inj ha).symm⟩

theorem formVV_ok {ws : List Word} {mk : Operand → Operand → Instr} {i : Instr}
    (h : formVV ws mk = .ok i) : ∃ a b rest, ws = a.word :: b.word :: rest ∧ i = mk a b := by
  obtain ⟨a, r, hw, ha⟩ := needV_ok h
  obtain ⟨b, r', rfl, hb⟩ := needV_ok ha
  exact ⟨a, b, r', hw, (Except.ok.inj hb).symm⟩

theorem formDV_ok {memWords : Nat} {ws : List Word} {mk : Operand → Operand → Instr}
    {i : Instr} (h : formDV memWords ws mk = .ok i) :
    ∃ a b rest, ws = a.word :: b.word :: rest ∧ a.destOk memWords = true ∧ i = mk a b := by
  obtain ⟨a, r, hw, hd, ha⟩ := needD_ok h
  obtain ⟨b, r', rfl, hb⟩ := needV_ok ha
  exact ⟨a, b, r', hw, hd, (Except.ok.inj hb).symm⟩

theorem formDVV_ok {memWords : Nat} {ws : List Word}
    {mk : Operand → Operand → Operand → Instr} {i : Instr}
    (h : formDVV memWords ws mk = .ok i) :
    ∃ a b c rest, ws = a.word :: b.word :: c.word :: rest ∧ a.destOk memWords = true ∧
      i = mk a b c := by
  obtain ⟨a, r, hw, hd, ha⟩ := needD_ok h
  obtain ⟨b, r', rfl, hb⟩ := needV_ok ha
  obtain ⟨c, r'', rfl, hc⟩ := needV_ok hb
  exact ⟨a, b, c, r'', hw, hd, (Except.ok.inj hc).symm⟩

end Sys2Proof
end

