-- ==== Sys2Proof/Laws/State.lean ====
section
/-!
SUPPORT. One lemma per field of State per update of it, so that no later proof unfolds a record
update; then what the two observers of a state, a register and a memory word, see of an update.
-/

namespace Sys2Proof.Machine

variable (s : State)

/-! ### State.putWord -/

@[simp] theorem State.putWord_params (a : Nat) (v : Word) : (s.putWord a v).params = s.params :=
  rfl
@[simp] theorem State.putWord_regs (a : Nat) (v : Word) : (s.putWord a v).regs = s.regs := rfl
@[simp] theorem State.putWord_pc (a : Nat) (v : Word) : (s.putWord a v).pc = s.pc := rfl
@[simp] theorem State.putWord_mem (a : Nat) (v : Word) :
    (s.putWord a v).mem = Memory.write s.mem a v :=
  rfl
@[simp] theorem State.putWord_stack (a : Nat) (v : Word) : (s.putWord a v).stack = s.stack := rfl
@[simp] theorem State.putWord_run (a : Nat) (v : Word) : (s.putWord a v).run = s.run := rfl
@[simp] theorem State.putWord_haltReason (a : Nat) (v : Word) :
    (s.putWord a v).haltReason = s.haltReason :=
  rfl
@[simp] theorem State.putWord_faultCode (a : Nat) (v : Word) :
    (s.putWord a v).faultCode = s.faultCode :=
  rfl
@[simp] theorem State.putWord_faultPc (a : Nat) (v : Word) :
    (s.putWord a v).faultPc = s.faultPc :=
  rfl
@[simp] theorem State.putWord_faultInfo (a : Nat) (v : Word) :
    (s.putWord a v).faultInfo = s.faultInfo :=
  rfl
@[simp] theorem State.putWord_outputs (a : Nat) (v : Word) :
    (s.putWord a v).outputs = s.outputs :=
  rfl
@[simp] theorem State.putWord_sentBefore (a : Nat) (v : Word) :
    (s.putWord a v).sentBefore = s.sentBefore :=
  rfl
@[simp] theorem State.putWord_taken (a : Nat) (v : Word) :
    (s.putWord a v).taken = s.taken :=
  rfl
@[simp] theorem State.putWord_offered (a : Nat) (v : Word) :
    (s.putWord a v).offered = s.offered :=
  rfl
@[simp] theorem State.putWord_schedule (a : Nat) (v : Word) :
    (s.putWord a v).schedule = s.schedule :=
  rfl
@[simp] theorem State.putWord_reg (a : Nat) (v : Word) (q : Reg) : (s.putWord a v).reg q = s.reg q := rfl

/-! ### State.setReg -/

@[simp] theorem State.setReg_params (r : Reg) (v : Word) : (s.setReg r v).params = s.params := rfl
@[simp] theorem State.setReg_regs (r : Reg) (v : Word) :
    (s.setReg r v).regs = s.regs.set r.val v r.isLt :=
  rfl
@[simp] theorem State.setReg_pc (r : Reg) (v : Word) : (s.setReg r v).pc = s.pc := rfl
@[simp] theorem State.setReg_mem (r : Reg) (v : Word) : (s.setReg r v).mem = s.mem := rfl
@[simp] theorem State.setReg_stack (r : Reg) (v : Word) : (s.setReg r v).stack = s.stack := rfl
@[simp] theorem State.setReg_run (r : Reg) (v : Word) : (s.setReg r v).run = s.run := rfl
@[simp] theorem State.setReg_haltReason (r : Reg) (v : Word) :
    (s.setReg r v).haltReason = s.haltReason :=
  rfl
@[simp] theorem State.setReg_faultCode (r : Reg) (v : Word) :
    (s.setReg r v).faultCode = s.faultCode :=
  rfl
@[simp] theorem State.setReg_faultPc (r : Reg) (v : Word) : (s.setReg r v).faultPc = s.faultPc :=
  rfl
@[simp] theorem State.setReg_faultInfo (r : Reg) (v : Word) :
    (s.setReg r v).faultInfo = s.faultInfo :=
  rfl
@[simp] theorem State.setReg_outputs (r : Reg) (v : Word) : (s.setReg r v).outputs = s.outputs :=
  rfl
@[simp] theorem State.setReg_sentBefore (r : Reg) (v : Word) : (s.setReg r v).sentBefore = s.sentBefore :=
  rfl
@[simp] theorem State.setReg_taken (r : Reg) (v : Word) : (s.setReg r v).taken = s.taken :=
  rfl
@[simp] theorem State.setReg_offered (r : Reg) (v : Word) : (s.setReg r v).offered = s.offered :=
  rfl
@[simp] theorem State.setReg_schedule (r : Reg) (v : Word) :
    (s.setReg r v).schedule = s.schedule :=
  rfl
@[simp] theorem State.setReg_word (r : Reg) (v : Word) (x : Nat) : (s.setReg r v).word x = s.word x := rfl

/-! ### State.setPc -/

@[simp] theorem State.setPc_params (v : Word) : (s.setPc v).params = s.params := rfl
@[simp] theorem State.setPc_regs (v : Word) : (s.setPc v).regs = s.regs := rfl
@[simp] theorem State.setPc_pc (v : Word) : (s.setPc v).pc = v := rfl
@[simp] theorem State.setPc_mem (v : Word) : (s.setPc v).mem = s.mem := rfl
@[simp] theorem State.setPc_stack (v : Word) : (s.setPc v).stack = s.stack := rfl
@[simp] theorem State.setPc_run (v : Word) : (s.setPc v).run = s.run := rfl
@[simp] theorem State.setPc_haltReason (v : Word) : (s.setPc v).haltReason = s.haltReason := rfl
@[simp] theorem State.setPc_faultCode (v : Word) : (s.setPc v).faultCode = s.faultCode := rfl
@[simp] theorem State.setPc_faultPc (v : Word) : (s.setPc v).faultPc = s.faultPc := rfl
@[simp] theorem State.setPc_faultInfo (v : Word) : (s.setPc v).faultInfo = s.faultInfo := rfl
@[simp] theorem State.setPc_outputs (v : Word) : (s.setPc v).outputs = s.outputs := rfl
@[simp] theorem State.setPc_sentBefore (v : Word) : (s.setPc v).sentBefore = s.sentBefore := rfl
@[simp] theorem State.setPc_taken (v : Word) : (s.setPc v).taken = s.taken := rfl
@[simp] theorem State.setPc_offered (v : Word) : (s.setPc v).offered = s.offered := rfl
@[simp] theorem State.setPc_schedule (v : Word) : (s.setPc v).schedule = s.schedule := rfl
@[simp] theorem State.setPc_word (v : Word) (x : Nat) : (s.setPc v).word x = s.word x := rfl
@[simp] theorem State.setPc_reg (v : Word) (q : Reg) : (s.setPc v).reg q = s.reg q := rfl

/-! ### State.advance -/

@[simp] theorem State.advance_params (n : Nat) : (s.advance n).params = s.params := rfl
@[simp] theorem State.advance_regs (n : Nat) : (s.advance n).regs = s.regs := rfl
@[simp] theorem State.advance_pc (n : Nat) : (s.advance n).pc = s.pc + BitVec.ofNat 16 n := rfl
@[simp] theorem State.advance_mem (n : Nat) : (s.advance n).mem = s.mem := rfl
@[simp] theorem State.advance_stack (n : Nat) : (s.advance n).stack = s.stack := rfl
@[simp] theorem State.advance_run (n : Nat) : (s.advance n).run = s.run := rfl
@[simp] theorem State.advance_haltReason (n : Nat) : (s.advance n).haltReason = s.haltReason :=
  rfl
@[simp] theorem State.advance_faultCode (n : Nat) : (s.advance n).faultCode = s.faultCode := rfl
@[simp] theorem State.advance_faultPc (n : Nat) : (s.advance n).faultPc = s.faultPc := rfl
@[simp] theorem State.advance_faultInfo (n : Nat) : (s.advance n).faultInfo = s.faultInfo := rfl
@[simp] theorem State.advance_outputs (n : Nat) : (s.advance n).outputs = s.outputs := rfl
@[simp] theorem State.advance_sentBefore (n : Nat) : (s.advance n).sentBefore = s.sentBefore := rfl
@[simp] theorem State.advance_taken (n : Nat) : (s.advance n).taken = s.taken := rfl
@[simp] theorem State.advance_offered (n : Nat) : (s.advance n).offered = s.offered := rfl
@[simp] theorem State.advance_schedule (n : Nat) : (s.advance n).schedule = s.schedule := rfl
@[simp] theorem State.advance_word (n : Nat) (x : Nat) : (s.advance n).word x = s.word x := rfl
@[simp] theorem State.advance_reg (n : Nat) (q : Reg) : (s.advance n).reg q = s.reg q := rfl

/-! ### State.setStack -/

@[simp] theorem State.setStack_params (st : List Word) : (s.setStack st).params = s.params := rfl
@[simp] theorem State.setStack_regs (st : List Word) : (s.setStack st).regs = s.regs := rfl
@[simp] theorem State.setStack_pc (st : List Word) : (s.setStack st).pc = s.pc := rfl
@[simp] theorem State.setStack_mem (st : List Word) : (s.setStack st).mem = s.mem := rfl
@[simp] theorem State.setStack_stack (st : List Word) : (s.setStack st).stack = st := rfl
@[simp] theorem State.setStack_run (st : List Word) : (s.setStack st).run = s.run := rfl
@[simp] theorem State.setStack_haltReason (st : List Word) :
    (s.setStack st).haltReason = s.haltReason :=
  rfl
@[simp] theorem State.setStack_faultCode (st : List Word) :
    (s.setStack st).faultCode = s.faultCode :=
  rfl
@[simp] theorem State.setStack_faultPc (st : List Word) : (s.setStack st).faultPc = s.faultPc :=
  rfl
@[simp] theorem State.setStack_faultInfo (st : List Word) :
    (s.setStack st).faultInfo = s.faultInfo :=
  rfl
@[simp] theorem State.setStack_outputs (st : List Word) : (s.setStack st).outputs = s.outputs :=
  rfl
@[simp] theorem State.setStack_sentBefore (st : List Word) : (s.setStack st).sentBefore = s.sentBefore :=
  rfl
@[simp] theorem State.setStack_taken (st : List Word) : (s.setStack st).taken = s.taken :=
  rfl
@[simp] theorem State.setStack_offered (st : List Word) : (s.setStack st).offered = s.offered :=
  rfl
@[simp] theorem State.setStack_schedule (st : List Word) :
    (s.setStack st).schedule = s.schedule :=
  rfl
@[simp] theorem State.setStack_word (st : List Word) (x : Nat) : (s.setStack st).word x = s.word x := rfl
@[simp] theorem State.setStack_reg (st : List Word) (q : Reg) : (s.setStack st).reg q = s.reg q := rfl

/-! ### State.enterHalted -/

@[simp] theorem State.enterHalted_params (b : BitVec 1) : (s.enterHalted b).params = s.params :=
  rfl
@[simp] theorem State.enterHalted_regs (b : BitVec 1) : (s.enterHalted b).regs = s.regs := rfl
@[simp] theorem State.enterHalted_pc (b : BitVec 1) : (s.enterHalted b).pc = s.pc := rfl
@[simp] theorem State.enterHalted_mem (b : BitVec 1) : (s.enterHalted b).mem = s.mem := rfl
@[simp] theorem State.enterHalted_stack (b : BitVec 1) : (s.enterHalted b).stack = s.stack := rfl
@[simp] theorem State.enterHalted_run (b : BitVec 1) : (s.enterHalted b).run = .halted := rfl
@[simp] theorem State.enterHalted_haltReason (b : BitVec 1) : (s.enterHalted b).haltReason = b :=
  rfl
@[simp] theorem State.enterHalted_faultCode (b : BitVec 1) :
    (s.enterHalted b).faultCode = s.faultCode :=
  rfl
@[simp] theorem State.enterHalted_faultPc (b : BitVec 1) :
    (s.enterHalted b).faultPc = s.faultPc :=
  rfl
@[simp] theorem State.enterHalted_faultInfo (b : BitVec 1) :
    (s.enterHalted b).faultInfo = s.faultInfo :=
  rfl
@[simp] theorem State.enterHalted_outputs (b : BitVec 1) :
    (s.enterHalted b).outputs = s.outputs :=
  rfl
@[simp] theorem State.enterHalted_sentBefore (b : BitVec 1) :
    (s.enterHalted b).sentBefore = s.sentBefore :=
  rfl
@[simp] theorem State.enterHalted_taken (b : BitVec 1) :
    (s.enterHalted b).taken = s.taken :=
  rfl
@[simp] theorem State.enterHalted_offered (b : BitVec 1) :
    (s.enterHalted b).offered = s.offered :=
  rfl
@[simp] theorem State.enterHalted_schedule (b : BitVec 1) :
    (s.enterHalted b).schedule = s.schedule :=
  rfl
@[simp] theorem State.enterHalted_word (b : BitVec 1) (x : Nat) : (s.enterHalted b).word x = s.word x := rfl
@[simp] theorem State.enterHalted_reg (b : BitVec 1) (q : Reg) : (s.enterHalted b).reg q = s.reg q := rfl

/-! ### State.setRun -/

@[simp] theorem State.setRun_params (r : RunState) : (s.setRun r).params = s.params := rfl
@[simp] theorem State.setRun_regs (r : RunState) : (s.setRun r).regs = s.regs := rfl
@[simp] theorem State.setRun_pc (r : RunState) : (s.setRun r).pc = s.pc := rfl
@[simp] theorem State.setRun_mem (r : RunState) : (s.setRun r).mem = s.mem := rfl
@[simp] theorem State.setRun_stack (r : RunState) : (s.setRun r).stack = s.stack := rfl
@[simp] theorem State.setRun_run (r : RunState) : (s.setRun r).run = r := rfl
@[simp] theorem State.setRun_haltReason (r : RunState) : (s.setRun r).haltReason = s.haltReason :=
  rfl
@[simp] theorem State.setRun_faultCode (r : RunState) : (s.setRun r).faultCode = s.faultCode :=
  rfl
@[simp] theorem State.setRun_faultPc (r : RunState) : (s.setRun r).faultPc = s.faultPc := rfl
@[simp] theorem State.setRun_faultInfo (r : RunState) : (s.setRun r).faultInfo = s.faultInfo :=
  rfl
@[simp] theorem State.setRun_outputs (r : RunState) : (s.setRun r).outputs = s.outputs := rfl
@[simp] theorem State.setRun_sentBefore (r : RunState) : (s.setRun r).sentBefore = s.sentBefore := rfl
@[simp] theorem State.setRun_taken (r : RunState) : (s.setRun r).taken = s.taken := rfl
@[simp] theorem State.setRun_offered (r : RunState) : (s.setRun r).offered = s.offered := rfl
@[simp] theorem State.setRun_schedule (r : RunState) : (s.setRun r).schedule = s.schedule := rfl
@[simp] theorem State.setRun_word (r : RunState) (x : Nat) : (s.setRun r).word x = s.word x := rfl
@[simp] theorem State.setRun_reg (r : RunState) (q : Reg) : (s.setRun r).reg q = s.reg q := rfl

/-! ### State.send -/

@[simp] theorem State.send_params (v : Word) : (s.send v).params = s.params := rfl
@[simp] theorem State.send_regs (v : Word) : (s.send v).regs = s.regs := rfl
@[simp] theorem State.send_pc (v : Word) : (s.send v).pc = s.pc := rfl
@[simp] theorem State.send_mem (v : Word) : (s.send v).mem = s.mem := rfl
@[simp] theorem State.send_stack (v : Word) : (s.send v).stack = s.stack := rfl
@[simp] theorem State.send_run (v : Word) : (s.send v).run = s.run := rfl
@[simp] theorem State.send_haltReason (v : Word) : (s.send v).haltReason = s.haltReason := rfl
@[simp] theorem State.send_faultCode (v : Word) : (s.send v).faultCode = s.faultCode := rfl
@[simp] theorem State.send_faultPc (v : Word) : (s.send v).faultPc = s.faultPc := rfl
@[simp] theorem State.send_faultInfo (v : Word) : (s.send v).faultInfo = s.faultInfo := rfl
@[simp] theorem State.send_outputs (v : Word) : (s.send v).outputs = s.outputs ++ [v] := rfl
@[simp] theorem State.send_sentBefore (v : Word) : (s.send v).sentBefore = s.sentBefore := rfl
@[simp] theorem State.send_taken (v : Word) : (s.send v).taken = s.taken := rfl
@[simp] theorem State.send_offered (v : Word) : (s.send v).offered = s.offered := rfl
@[simp] theorem State.send_schedule (v : Word) : (s.send v).schedule = s.schedule := rfl
@[simp] theorem State.send_word (v : Word) (x : Nat) : (s.send v).word x = s.word x := rfl
@[simp] theorem State.send_reg (v : Word) (q : Reg) : (s.send v).reg q = s.reg q := rfl

/-! ### State.setOffered -/

@[simp] theorem State.setOffered_params (vs : List Word) : (s.setOffered vs).params = s.params :=
  rfl
@[simp] theorem State.setOffered_regs (vs : List Word) : (s.setOffered vs).regs = s.regs := rfl
@[simp] theorem State.setOffered_pc (vs : List Word) : (s.setOffered vs).pc = s.pc := rfl
@[simp] theorem State.setOffered_mem (vs : List Word) : (s.setOffered vs).mem = s.mem := rfl
@[simp] theorem State.setOffered_stack (vs : List Word) : (s.setOffered vs).stack = s.stack := rfl
@[simp] theorem State.setOffered_run (vs : List Word) : (s.setOffered vs).run = s.run := rfl
@[simp] theorem State.setOffered_haltReason (vs : List Word) :
    (s.setOffered vs).haltReason = s.haltReason :=
  rfl
@[simp] theorem State.setOffered_faultCode (vs : List Word) :
    (s.setOffered vs).faultCode = s.faultCode :=
  rfl
@[simp] theorem State.setOffered_faultPc (vs : List Word) :
    (s.setOffered vs).faultPc = s.faultPc :=
  rfl
@[simp] theorem State.setOffered_faultInfo (vs : List Word) :
    (s.setOffered vs).faultInfo = s.faultInfo :=
  rfl
@[simp] theorem State.setOffered_outputs (vs : List Word) :
    (s.setOffered vs).outputs = s.outputs :=
  rfl
@[simp] theorem State.setOffered_sentBefore (vs : List Word) :
    (s.setOffered vs).sentBefore = s.sentBefore :=
  rfl
@[simp] theorem State.setOffered_taken (vs : List Word) :
    (s.setOffered vs).taken = s.taken :=
  rfl
@[simp] theorem State.setOffered_offered (vs : List Word) : (s.setOffered vs).offered = vs := rfl
@[simp] theorem State.setOffered_schedule (vs : List Word) :
    (s.setOffered vs).schedule = s.schedule :=
  rfl
@[simp] theorem State.setOffered_word (vs : List Word) (x : Nat) : (s.setOffered vs).word x = s.word x := rfl
@[simp] theorem State.setOffered_reg (vs : List Word) (q : Reg) : (s.setOffered vs).reg q = s.reg q := rfl

/-! ### State.takeOffer -/

@[simp] theorem State.takeOffer_params (v : Word) (vs : List Word) : (s.takeOffer v vs).params = s.params :=
  rfl
@[simp] theorem State.takeOffer_regs (v : Word) (vs : List Word) : (s.takeOffer v vs).regs = s.regs := rfl
@[simp] theorem State.takeOffer_pc (v : Word) (vs : List Word) : (s.takeOffer v vs).pc = s.pc := rfl
@[simp] theorem State.takeOffer_mem (v : Word) (vs : List Word) : (s.takeOffer v vs).mem = s.mem := rfl
@[simp] theorem State.takeOffer_stack (v : Word) (vs : List Word) : (s.takeOffer v vs).stack = s.stack := rfl
@[simp] theorem State.takeOffer_run (v : Word) (vs : List Word) : (s.takeOffer v vs).run = s.run := rfl
@[simp] theorem State.takeOffer_haltReason (v : Word) (vs : List Word) :
    (s.takeOffer v vs).haltReason = s.haltReason :=
  rfl
@[simp] theorem State.takeOffer_faultCode (v : Word) (vs : List Word) :
    (s.takeOffer v vs).faultCode = s.faultCode :=
  rfl
@[simp] theorem State.takeOffer_faultPc (v : Word) (vs : List Word) :
    (s.takeOffer v vs).faultPc = s.faultPc :=
  rfl
@[simp] theorem State.takeOffer_faultInfo (v : Word) (vs : List Word) :
    (s.takeOffer v vs).faultInfo = s.faultInfo :=
  rfl
@[simp] theorem State.takeOffer_outputs (v : Word) (vs : List Word) :
    (s.takeOffer v vs).outputs = s.outputs :=
  rfl
@[simp] theorem State.takeOffer_sentBefore (v : Word) (vs : List Word) :
    (s.takeOffer v vs).sentBefore = s.sentBefore :=
  rfl
@[simp] theorem State.takeOffer_taken (v : Word) (vs : List Word) :
    (s.takeOffer v vs).taken = s.taken ++ [v] :=
  rfl
@[simp] theorem State.takeOffer_offered (v : Word) (vs : List Word) : (s.takeOffer v vs).offered = vs := rfl
@[simp] theorem State.takeOffer_schedule (v : Word) (vs : List Word) :
    (s.takeOffer v vs).schedule = s.schedule :=
  rfl
@[simp] theorem State.takeOffer_word (v : Word) (vs : List Word) (x : Nat) : (s.takeOffer v vs).word x = s.word x := rfl
@[simp] theorem State.takeOffer_reg (v : Word) (vs : List Word) (q : Reg) : (s.takeOffer v vs).reg q = s.reg q := rfl

/-! ### State.setSchedule -/

@[simp] theorem State.setSchedule_params (es : List HostEvent) :
    (s.setSchedule es).params = s.params :=
  rfl
@[simp] theorem State.setSchedule_regs (es : List HostEvent) : (s.setSchedule es).regs = s.regs :=
  rfl
@[simp] theorem State.setSchedule_pc (es : List HostEvent) : (s.setSchedule es).pc = s.pc := rfl
@[simp] theorem State.setSchedule_mem (es : List HostEvent) : (s.setSchedule es).mem = s.mem :=
  rfl
@[simp] theorem State.setSchedule_stack (es : List HostEvent) :
    (s.setSchedule es).stack = s.stack :=
  rfl
@[simp] theorem State.setSchedule_run (es : List HostEvent) : (s.setSchedule es).run = s.run :=
  rfl
@[simp] theorem State.setSchedule_haltReason (es : List HostEvent) :
    (s.setSchedule es).haltReason = s.haltReason :=
  rfl
@[simp] theorem State.setSchedule_faultCode (es : List HostEvent) :
    (s.setSchedule es).faultCode = s.faultCode :=
  rfl
@[simp] theorem State.setSchedule_faultPc (es : List HostEvent) :
    (s.setSchedule es).faultPc = s.faultPc :=
  rfl
@[simp] theorem State.setSchedule_faultInfo (es : List HostEvent) :
    (s.setSchedule es).faultInfo = s.faultInfo :=
  rfl
@[simp] theorem State.setSchedule_outputs (es : List HostEvent) :
    (s.setSchedule es).outputs = s.outputs :=
  rfl
@[simp] theorem State.setSchedule_sentBefore (es : List HostEvent) :
    (s.setSchedule es).sentBefore = s.sentBefore :=
  rfl
@[simp] theorem State.setSchedule_taken (es : List HostEvent) :
    (s.setSchedule es).taken = s.taken :=
  rfl
@[simp] theorem State.setSchedule_offered (es : List HostEvent) :
    (s.setSchedule es).offered = s.offered :=
  rfl
@[simp] theorem State.setSchedule_schedule (es : List HostEvent) :
    (s.setSchedule es).schedule = es :=
  rfl
@[simp] theorem State.setSchedule_word (es : List HostEvent) (x : Nat) : (s.setSchedule es).word x = s.word x := rfl
@[simp] theorem State.setSchedule_reg (es : List HostEvent) (q : Reg) : (s.setSchedule es).reg q = s.reg q := rfl

/-! ### takeFault -/

@[simp] theorem takeFault_params (e : Raised) : (takeFault s e).params = s.params := rfl
@[simp] theorem takeFault_regs (e : Raised) : (takeFault s e).regs = s.regs := rfl
@[simp] theorem takeFault_pc (e : Raised) : (takeFault s e).pc = s.pc := rfl
@[simp] theorem takeFault_mem (e : Raised) : (takeFault s e).mem = s.mem := rfl
@[simp] theorem takeFault_stack (e : Raised) : (takeFault s e).stack = s.stack := rfl
@[simp] theorem takeFault_run (e : Raised) : (takeFault s e).run = .faulted := rfl
@[simp] theorem takeFault_haltReason (e : Raised) : (takeFault s e).haltReason = s.haltReason :=
  rfl
@[simp] theorem takeFault_faultCode (e : Raised) : (takeFault s e).faultCode = e.kind.code := rfl
@[simp] theorem takeFault_faultPc (e : Raised) : (takeFault s e).faultPc = s.pc := rfl
@[simp] theorem takeFault_faultInfo (e : Raised) : (takeFault s e).faultInfo = e.info := rfl
@[simp] theorem takeFault_outputs (e : Raised) : (takeFault s e).outputs = s.outputs := rfl
@[simp] theorem takeFault_sentBefore (e : Raised) : (takeFault s e).sentBefore = s.sentBefore := rfl
@[simp] theorem takeFault_taken (e : Raised) : (takeFault s e).taken = s.taken := rfl
@[simp] theorem takeFault_offered (e : Raised) : (takeFault s e).offered = s.offered := rfl
@[simp] theorem takeFault_schedule (e : Raised) : (takeFault s e).schedule = s.schedule := rfl
@[simp] theorem takeFault_word (e : Raised) (x : Nat) : (takeFault s e).word x = s.word x := rfl
@[simp] theorem takeFault_reg (e : Raised) (q : Reg) : (takeFault s e).reg q = s.reg q := rfl

/-! ### inputTaken -/

@[simp] theorem inputTaken_params (v : Word) (vs : List Word) : (inputTaken s v vs).params = s.params := rfl
@[simp] theorem inputTaken_regs (v : Word) (vs : List Word) : (inputTaken s v vs).regs = s.regs := rfl
@[simp] theorem inputTaken_pc (v : Word) (vs : List Word) : (inputTaken s v vs).pc = s.pc + 2 := rfl
@[simp] theorem inputTaken_mem (v : Word) (vs : List Word) : (inputTaken s v vs).mem = s.mem := rfl
@[simp] theorem inputTaken_stack (v : Word) (vs : List Word) : (inputTaken s v vs).stack = s.stack := rfl
@[simp] theorem inputTaken_run (v : Word) (vs : List Word) : (inputTaken s v vs).run = .run := rfl
@[simp] theorem inputTaken_haltReason (v : Word) (vs : List Word) :
    (inputTaken s v vs).haltReason = s.haltReason :=
  rfl
@[simp] theorem inputTaken_faultCode (v : Word) (vs : List Word) :
    (inputTaken s v vs).faultCode = s.faultCode :=
  rfl
@[simp] theorem inputTaken_faultPc (v : Word) (vs : List Word) : (inputTaken s v vs).faultPc = s.faultPc := rfl
@[simp] theorem inputTaken_faultInfo (v : Word) (vs : List Word) :
    (inputTaken s v vs).faultInfo = s.faultInfo :=
  rfl
@[simp] theorem inputTaken_outputs (v : Word) (vs : List Word) : (inputTaken s v vs).outputs = s.outputs := rfl
@[simp] theorem inputTaken_sentBefore (v : Word) (vs : List Word) : (inputTaken s v vs).sentBefore = s.sentBefore := rfl
@[simp] theorem inputTaken_taken (v : Word) (vs : List Word) : (inputTaken s v vs).taken = s.taken ++ [v] := rfl
@[simp] theorem inputTaken_offered (v : Word) (vs : List Word) : (inputTaken s v vs).offered = vs := rfl
@[simp] theorem inputTaken_schedule (v : Word) (vs : List Word) : (inputTaken s v vs).schedule = s.schedule :=
  rfl
@[simp] theorem inputTaken_word (v : Word) (vs : List Word) (x : Nat) : (inputTaken s v vs).word x = s.word x := rfl
@[simp] theorem inputTaken_reg (v : Word) (vs : List Word) (q : Reg) : (inputTaken s v vs).reg q = s.reg q := rfl

/-! ### hostReset -/

@[simp] theorem hostReset_params : (hostReset s).params = s.params := rfl
@[simp] theorem hostReset_regs : (hostReset s).regs = Vector.replicate 8 0 := rfl
@[simp] theorem hostReset_pc : (hostReset s).pc = 0 := rfl
@[simp] theorem hostReset_mem : (hostReset s).mem = [] := rfl
@[simp] theorem hostReset_stack : (hostReset s).stack = [] := rfl
@[simp] theorem hostReset_run : (hostReset s).run = .idle := rfl
@[simp] theorem hostReset_haltReason : (hostReset s).haltReason = 0 := rfl
@[simp] theorem hostReset_faultCode : (hostReset s).faultCode = 0 := rfl
@[simp] theorem hostReset_faultPc : (hostReset s).faultPc = 0 := rfl
@[simp] theorem hostReset_faultInfo : (hostReset s).faultInfo = 0 := rfl
@[simp] theorem hostReset_outputs : (hostReset s).outputs = [] := rfl
@[simp] theorem hostReset_sentBefore : (hostReset s).sentBefore = s.allSent := rfl
@[simp] theorem hostReset_taken : (hostReset s).taken = [] := rfl
@[simp] theorem hostReset_offered : (hostReset s).offered = s.offered := rfl
@[simp] theorem hostReset_schedule : (hostReset s).schedule = s.schedule := rfl

/-! ### loadSucceeds -/

@[simp] theorem loadSucceeds_params (bytes : List Byte) :
    (loadSucceeds s bytes).params = s.params :=
  rfl
@[simp] theorem loadSucceeds_regs (bytes : List Byte) :
    (loadSucceeds s bytes).regs = Vector.replicate 8 0 :=
  rfl
@[simp] theorem loadSucceeds_pc (bytes : List Byte) : (loadSucceeds s bytes).pc = 0 := rfl
@[simp] theorem loadSucceeds_mem (bytes : List Byte) :
    (loadSucceeds s bytes).mem = Memory.ofWords 0 (imageWords bytes) :=
  rfl
@[simp] theorem loadSucceeds_stack (bytes : List Byte) : (loadSucceeds s bytes).stack = [] := rfl
@[simp] theorem loadSucceeds_run (bytes : List Byte) : (loadSucceeds s bytes).run = .run := rfl
@[simp] theorem loadSucceeds_haltReason (bytes : List Byte) :
    (loadSucceeds s bytes).haltReason = 0 :=
  rfl
@[simp] theorem loadSucceeds_faultCode (bytes : List Byte) :
    (loadSucceeds s bytes).faultCode = 0 :=
  rfl
@[simp] theorem loadSucceeds_faultPc (bytes : List Byte) : (loadSucceeds s bytes).faultPc = 0 :=
  rfl
@[simp] theorem loadSucceeds_faultInfo (bytes : List Byte) :
    (loadSucceeds s bytes).faultInfo = 0 :=
  rfl
@[simp] theorem loadSucceeds_outputs (bytes : List Byte) :
    (loadSucceeds s bytes).outputs = [] :=
  rfl
@[simp] theorem loadSucceeds_sentBefore (bytes : List Byte) :
    (loadSucceeds s bytes).sentBefore = s.allSent :=
  rfl
@[simp] theorem loadSucceeds_taken (bytes : List Byte) :
    (loadSucceeds s bytes).taken = [] :=
  rfl
@[simp] theorem loadSucceeds_offered (bytes : List Byte) :
    (loadSucceeds s bytes).offered = s.offered :=
  rfl
@[simp] theorem loadSucceeds_schedule (bytes : List Byte) :
    (loadSucceeds s bytes).schedule = s.schedule :=
  rfl

/-! ### loadRefused -/

@[simp] theorem loadRefused_params : (loadRefused s).params = s.params := rfl
@[simp] theorem loadRefused_regs : (loadRefused s).regs = s.regs := rfl
@[simp] theorem loadRefused_pc : (loadRefused s).pc = s.pc := rfl
@[simp] theorem loadRefused_mem : (loadRefused s).mem = s.mem := rfl
@[simp] theorem loadRefused_stack : (loadRefused s).stack = s.stack := rfl
@[simp] theorem loadRefused_run : (loadRefused s).run = .loadFailed := rfl
@[simp] theorem loadRefused_haltReason : (loadRefused s).haltReason = s.haltReason := rfl
@[simp] theorem loadRefused_faultCode : (loadRefused s).faultCode = 7 := rfl
@[simp] theorem loadRefused_faultPc : (loadRefused s).faultPc = 0 := rfl
@[simp] theorem loadRefused_faultInfo : (loadRefused s).faultInfo = 0 := rfl
@[simp] theorem loadRefused_outputs : (loadRefused s).outputs = s.outputs := rfl
@[simp] theorem loadRefused_sentBefore : (loadRefused s).sentBefore = s.sentBefore := rfl
@[simp] theorem loadRefused_taken : (loadRefused s).taken = s.taken := rfl
@[simp] theorem loadRefused_offered : (loadRefused s).offered = s.offered := rfl
@[simp] theorem loadRefused_schedule : (loadRefused s).schedule = s.schedule := rfl
@[simp] theorem loadRefused_word (x : Nat) : (loadRefused s).word x = s.word x := rfl
@[simp] theorem loadRefused_reg (q : Reg) : (loadRefused s).reg q = s.reg q := rfl

/-! ### Registers -/

/-- A register reads back what was written to it (10_state.md R22). -/
@[simp] theorem State.setReg_reg_self (r : Reg) (v : Word) : (s.setReg r v).reg r = v := by
  simp [State.reg, State.setReg]

/-- Writing a register leaves the others alone. -/
theorem State.setReg_reg_of_ne {r q : Reg} (v : Word) (h : r ≠ q) :
    (s.setReg r v).reg q = s.reg q := by
  have h' : r.val ≠ q.val := fun e => h (Fin.ext e)
  simp [State.reg, State.setReg, h']

/-- Every register reads as 0 in a register file of zeros (10_state.md R24). -/
theorem State.reg_of_zero {s : State} (h : s.regs = Vector.replicate 8 0) (r : Reg) :
    s.reg r = 0 := by
  simp [State.reg, h]

end Sys2Proof.Machine
end

