-- ==== Sys2Proof/Laws/Memory.lean ====
section
/-!
SUPPORT. The laws of program memory: a word reads back what was written, other words keep
their value, every operation keeps the canonical form, and a canonical memory is determined by
what it reads as.
-/

namespace Sys2Proof.Machine

/-- A canonical memory whose addresses start at `lo` reads as unlisted below `lo`. -/
theorem Memory.read_below {m : Memory} {lo a : Nat} (h : Memory.wfFrom lo m = true)
    (ha : a < lo) : Memory.read m a = Memory.unlisted := by
  induction m generalizing lo with
  | nil => rfl
  | cons c rest ih =>
    obtain ⟨b, w⟩ := c
    simp only [Memory.wfFrom, Bool.and_eq_true, decide_eq_true_eq] at h
    have hb : a ≠ b := by omega
    simp only [Memory.read, hb, if_false]
    exact ih h.2 (by omega)

/-- The canonical form may start lower. -/
theorem Memory.wfFrom_mono {m : Memory} {lo lo' : Nat} (h : Memory.wfFrom lo m = true)
    (hl : lo' ≤ lo) : Memory.wfFrom lo' m = true := by
  cases m with
  | nil => rfl
  | cons c rest =>
    obtain ⟨b, w⟩ := c
    simp only [Memory.wfFrom, Bool.and_eq_true, decide_eq_true_eq] at h ⊢
    exact ⟨⟨by omega, h.1.2⟩, h.2⟩

/-- The word just written reads back, in a canonical memory. -/
theorem Memory.read_write_self {m : Memory} {lo : Nat} (a : Nat) (v : Word)
    (h : Memory.wfFrom lo m = true) : Memory.read (Memory.write m a v) a = v := by
  induction m generalizing lo with
  | nil =>
    by_cases hv : v = Memory.unlisted <;> simp [Memory.write, Memory.read, hv]
  | cons c rest ih =>
    obtain ⟨b, w⟩ := c
    have h' := h
    simp only [Memory.wfFrom, Bool.and_eq_true, decide_eq_true_eq] at h'
    by_cases hlt : a < b
    · by_cases hv : v = Memory.unlisted
      · have : a ≠ b := by omega
        simp only [Memory.write, hlt, hv, if_true, Memory.read, this, if_false]
        exact Memory.read_below h'.2 (by omega)
      · simp [Memory.write, hlt, hv, Memory.read]
    · by_cases he : a = b
      · subst he
        by_cases hv : v = Memory.unlisted
        · simp only [Memory.write, hv, if_true, Nat.lt_irrefl, if_false]
          exact Memory.read_below h'.2 (by omega)
        · simp [Memory.write, hv, Memory.read]
      · simp only [Memory.write, hlt, he, if_false, Memory.read]
        exact ih h'.2

/-- Writing one word leaves every other word alone (no canonical form needed). -/
theorem Memory.read_write_of_ne (m : Memory) {a x : Nat} (v : Word) (h : x ≠ a) :
    Memory.read (Memory.write m a v) x = Memory.read m x := by
  induction m with
  | nil => by_cases hv : v = Memory.unlisted <;> simp [Memory.write, Memory.read, hv, h]
  | cons c rest ih =>
    obtain ⟨b, w⟩ := c
    by_cases hlt : a < b
    · by_cases hv : v = Memory.unlisted <;> simp [Memory.write, hlt, hv, Memory.read, h]
    · by_cases he : a = b
      · subst he
        by_cases hv : v = Memory.unlisted <;> simp [Memory.write, hv, Memory.read, h]
      · simp [Memory.write, hlt, he, Memory.read, ih]

/-- A write keeps the canonical form. -/
theorem Memory.wfFrom_write {m : Memory} {lo a : Nat} (v : Word)
    (h : Memory.wfFrom lo m = true) (ha : lo ≤ a) :
    Memory.wfFrom lo (Memory.write m a v) = true := by
  induction m generalizing lo with
  | nil => by_cases hv : v = Memory.unlisted <;> simp [Memory.write, Memory.wfFrom, hv, ha]
  | cons c rest ih =>
    obtain ⟨b, w⟩ := c
    have h' := h
    simp only [Memory.wfFrom, Bool.and_eq_true, decide_eq_true_eq] at h'
    by_cases hlt : a < b
    · by_cases hv : v = Memory.unlisted
      · simpa [Memory.write, hlt, hv] using h
      · simp only [Memory.write, hlt, hv, if_true, if_false, Memory.wfFrom, Bool.and_eq_true,
          decide_eq_true_eq]
        exact ⟨⟨ha, hv⟩, ⟨by omega, h'.1.2⟩, h'.2⟩
    · by_cases he : a = b
      · subst he
        by_cases hv : v = Memory.unlisted
        · simp only [Memory.write, hv, if_true, Nat.lt_irrefl, if_false]
          exact Memory.wfFrom_mono h'.2 (by omega)
        · simp only [Memory.write, hv, if_true, Nat.lt_irrefl, if_false, Memory.wfFrom,
            Bool.and_eq_true, decide_eq_true_eq]
          exact ⟨⟨ha, hv⟩, h'.2⟩
      · simp only [Memory.write, hlt, he, if_false, Memory.wfFrom, Bool.and_eq_true,
          decide_eq_true_eq]
        exact ⟨h'.1, ih h'.2 (by omega)⟩

/-- A write keeps the canonical form. -/
theorem Memory.wf_write {m : Memory} (a : Nat) (v : Word) (h : Memory.wf m = true) :
    Memory.wf (Memory.write m a v) = true :=
  Memory.wfFrom_write v h (Nat.zero_le a)

/-- So do writes of several words. -/
theorem Memory.wf_writeAll {m : Memory} (a : Nat) (ws : List Word) (h : Memory.wf m = true) :
    Memory.wf (Memory.writeAll m a ws) = true := by
  induction ws generalizing m a with
  | nil => exact h
  | cons w ws ih => exact ih (a + 1) (Memory.wf_write a w h)

/-- A loaded memory has the canonical form. -/
theorem Memory.wfFrom_ofWords (a : Nat) (ws : List Word) :
    Memory.wfFrom a (Memory.ofWords a ws) = true := by
  induction ws generalizing a with
  | nil => rfl
  | cons w ws ih =>
    by_cases hw : w = Memory.unlisted
    · simpa [Memory.ofWords, hw] using Memory.wfFrom_mono (ih (a + 1)) (Nat.le_succ a)
    · simp [Memory.ofWords, hw, Memory.wfFrom, ih]

/-- A loaded memory has the canonical form. -/
theorem Memory.wf_ofWords (ws : List Word) : Memory.wf (Memory.ofWords 0 ws) = true :=
  Memory.wfFrom_ofWords 0 ws

/-- A loaded memory reads as the image's words, and 0 beyond them (20_memory.md R62, R64). -/
theorem Memory.read_ofWords (a x : Nat) (ws : List Word) :
    Memory.read (Memory.ofWords a ws) (a + x) = ws.getD x 0 := by
  induction ws generalizing a x with
  | nil => simp [Memory.ofWords, Memory.read, Memory.unlisted]
  | cons w ws ih =>
    cases x with
    | zero =>
      by_cases hw : w = Memory.unlisted
      · simp only [Memory.ofWords, hw, if_true, Nat.add_zero, List.getD_cons_zero]
        exact Memory.read_below (Memory.wfFrom_ofWords (a + 1) ws) (Nat.lt_succ_self a)
      · simp [Memory.ofWords, hw, Memory.read]
    | succ x =>
      have e : a + (x + 1) = a + 1 + x := by omega
      have ne : a + 1 + x ≠ a := by omega
      by_cases hw : w = Memory.unlisted
      · simp only [Memory.ofWords, hw, if_true, List.getD_cons_succ, e]
        exact ih (a + 1) x
      · simp only [Memory.ofWords, hw, if_false, Memory.read, List.getD_cons_succ, e, ne]
        exact ih (a + 1) x

/-- A write lists no address but its own and those listed before. -/
theorem Memory.mem_write {m : Memory} {a : Nat} {v : Word} {c : Nat × Word}
    (h : c ∈ Memory.write m a v) : c.1 = a ∨ c ∈ m := by
  induction m with
  | nil =>
    by_cases hv : v = Memory.unlisted
    · simp [Memory.write, hv] at h
    · simp [Memory.write, hv] at h
      exact .inl (by rw [h])
  | cons e rest ih =>
    obtain ⟨b, w⟩ := e
    by_cases hlt : a < b
    · by_cases hv : v = Memory.unlisted
      · rw [Memory.write, if_pos hlt, if_pos hv] at h
        exact .inr h
      · rw [Memory.write, if_pos hlt, if_neg hv, List.mem_cons] at h
        rcases h with rfl | h
        · exact .inl rfl
        · exact .inr h
    · by_cases he : a = b
      · by_cases hv : v = Memory.unlisted
        · rw [Memory.write, if_neg hlt, if_pos he, if_pos hv] at h
          exact .inr (List.mem_cons_of_mem _ h)
        · rw [Memory.write, if_neg hlt, if_pos he, if_neg hv, List.mem_cons] at h
          rcases h with rfl | h
          · exact .inl he.symm
          · exact .inr (List.mem_cons_of_mem _ h)
      · rw [Memory.write, if_neg hlt, if_neg he, List.mem_cons] at h
        rcases h with rfl | h
        · exact .inr List.mem_cons_self
        · exact (ih h).imp id (List.mem_cons_of_mem _)

/-- A loaded memory lists addresses of the image alone. -/
theorem Memory.mem_ofWords {a : Nat} {ws : List Word} {c : Nat × Word}
    (h : c ∈ Memory.ofWords a ws) : c.1 < a + ws.length := by
  induction ws generalizing a with
  | nil => simp [Memory.ofWords] at h
  | cons w ws ih =>
    by_cases hw : w = Memory.unlisted
    · rw [Memory.ofWords, if_pos hw] at h
      have := ih h
      simp only [List.length_cons]
      omega
    · rw [Memory.ofWords, if_neg hw, List.mem_cons] at h
      simp only [List.length_cons]
      rcases h with rfl | h
      · simp
      · have := ih h
        omega

/-- Two canonical memories that read the same everywhere are the same list: the form is
canonical. -/
theorem Memory.ext_of_read {m n : Memory} {lo : Nat} (hm : Memory.wfFrom lo m = true)
    (hn : Memory.wfFrom lo n = true) (h : ∀ a, Memory.read m a = Memory.read n a) : m = n := by
  induction m generalizing n lo with
  | nil =>
    cases n with
    | nil => rfl
    | cons c rest =>
      obtain ⟨b, w⟩ := c
      have := h b
      simp only [Memory.wfFrom, Bool.and_eq_true, decide_eq_true_eq] at hn
      simp only [Memory.read, if_true] at this
      exact absurd this.symm hn.1.2
  | cons c rest ih =>
    obtain ⟨b, w⟩ := c
    simp only [Memory.wfFrom, Bool.and_eq_true, decide_eq_true_eq] at hm
    cases n with
    | nil =>
      have := h b
      simp only [Memory.read, if_true] at this
      exact absurd this hm.1.2
    | cons d rest' =>
      obtain ⟨b', w'⟩ := d
      simp only [Memory.wfFrom, Bool.and_eq_true, decide_eq_true_eq] at hn
      rcases Nat.lt_trichotomy b b' with hb | hb | hb
      · have := h b
        have ne : b ≠ b' := by omega
        simp only [Memory.read, if_true, ne, if_false] at this
        rw [Memory.read_below hn.2 (by omega)] at this
        exact absurd this hm.1.2
      · subst hb
        have hw := h b
        simp only [Memory.read, if_true] at hw
        subst hw
        have : rest = rest' := by
          refine ih hm.2 hn.2 fun a => ?_
          by_cases ha : a = b
          · subst ha
            rw [Memory.read_below hm.2 (Nat.lt_succ_self a),
              Memory.read_below hn.2 (Nat.lt_succ_self a)]
          · simpa [Memory.read, ha] using h a
        rw [this]
      · have := h b'
        have ne : b' ≠ b := by omega
        simp only [Memory.read, if_true, ne, if_false] at this
        rw [Memory.read_below hm.2 (by omega)] at this
        exact absurd this.symm hn.1.2

/-! ### Words of a state -/

/-- A word reads back what was put there, in a canonical memory. -/
theorem State.putWord_word_self {s : State} (a : Nat) (v : Word)
    (h : Memory.wf s.mem = true) : (s.putWord a v).word a = v :=
  Memory.read_write_self a v h

/-- Putting a word leaves every other word alone. -/
theorem State.putWord_word_of_ne (s : State) {a x : Nat} (v : Word) (h : x ≠ a) :
    (s.putWord a v).word x = s.word x :=
  Memory.read_write_of_ne s.mem v h

end Sys2Proof.Machine
end

