-- ==== Sys2Proof/Laws/Ops.lean ====
section
/-!
SUPPORT. One lemma for each shared operation that says once everything it can do; proofs about
instructions cite these and do not unfold the operation.
-/

namespace Sys2Proof.Machine

/-- What `finish` can answer: the state computed, or the fault taken in the state before. -/
theorem finish_cases {s t : State} {r : Except Raised State} (h : finish s r = .next t) :
    r = .ok t ∨ ∃ e, r = .error e ∧ t = takeFault s e := by
  cases r with
  | ok u =>
    simp only [finish, Host.Outcome.next.injEq] at h
    exact .inl (by rw [h])
  | error e =>
    simp only [finish, Host.Outcome.next.injEq] at h
    exact .inr ⟨e, rfl, h.symm⟩

@[simp] theorem finish_ok (s t : State) : finish s (.ok t) = .next t := rfl

@[simp] theorem finish_error (s : State) (e : Raised) :
    finish s (.error e) = .next (takeFault s e) := rfl

/-- A fault is taken precisely (60_exceptions.md R242). -/
theorem takeFault_faultsWith (s : State) (e : Raised) :
    FaultsWith e.kind e.info s (takeFault s e) :=
  ⟨rfl, rfl, rfl, rfl, rfl, fun _ => rfl, fun _ => rfl, rfl, rfl, ⟨rfl, rfl, rfl⟩,
    ⟨rfl, rfl, rfl⟩⟩

/-- The address of a literal is the literal (30_encoding.md R85, R87). -/
theorem literal_toNat (d : BitVec 15) : (d.setWidth 16).toNat = d.toNat := by
  have := d.isLt
  rw [BitVec.toNat_setWidth]
  omega

/-- A read inside memory (20_memory.md R54). -/
theorem memRead_inside {s : State} {addr : Word} (h : addr.toNat < s.params.memWords) :
    memRead s addr = .ok (s.word addr.toNat) := by
  simp [memRead, Nat.not_le.mpr h]

/-- A read outside memory (R54). -/
theorem memRead_outside {s : State} {addr : Word} (h : s.params.memWords ≤ addr.toNat) :
    memRead s addr = .error ⟨.addressOutOfRange, addr⟩ := by
  simp [memRead, h]

/-- A write inside memory (R55). -/
theorem memWrite_inside {s : State} {addr : Word} (v : Word)
    (h : addr.toNat < s.params.memWords) :
    memWrite s addr v = .ok (s.putWord addr.toNat v) := by
  simp [memWrite, Nat.not_le.mpr h]

/-- A write outside memory (R55). -/
theorem memWrite_outside {s : State} {addr : Word} (v : Word)
    (h : s.params.memWords ≤ addr.toNat) :
    memWrite s addr v = .error ⟨.addressOutOfRange, addr⟩ := by
  simp [memWrite, h]

/-- The stack is full exactly when the capacity is bounded and sp is at it (10_state.md
R33). -/
theorem stackFull_iff (s : State) : stackFull s = true ↔ s.params.stackCapacity = some s.sp := by
  unfold stackFull
  cases h : s.params.stackCapacity with
  | none => simp
  | some c => simp [eq_comm]

/-- A push with room (R33). -/
theorem push_room {s : State} (v : Word) (h : s.params.stackCapacity ≠ some s.sp) :
    push s v = .ok (s.setStack (v :: s.stack)) := by
  have : stackFull s = false := by
    rw [← Bool.not_eq_true]
    exact (not_congr (stackFull_iff s)).mpr h
  simp [push, this]

/-- A push at full depth (R33). -/
theorem push_full {s : State} (v : Word) (h : s.params.stackCapacity = some s.sp) :
    push s v = .error ⟨.stackOverflow, 0⟩ := by
  simp [push, (stackFull_iff s).mpr h]

/-- A literal destination inside memory (30_encoding.md R85). -/
theorem writeDest_lit_inside {s : State} {d : BitVec 15} (v : Word)
    (h : d.toNat < s.params.memWords) :
    writeDest s (.lit d) v = .ok (s.putWord d.toNat v) := by
  have h' : (d.setWidth 16).toNat < s.params.memWords := by rwa [literal_toNat]
  rw [writeDest, memWrite_inside v h', literal_toNat]

/-- A literal destination outside memory (R85). -/
theorem writeDest_lit_outside {s : State} {d : BitVec 15} (v : Word)
    (h : s.params.memWords ≤ d.toNat) :
    writeDest s (.lit d) v = .error ⟨.addressOutOfRange, d.setWidth 16⟩ :=
  memWrite_outside v (by rwa [literal_toNat])

/-- Everything a destination write can do when it completes (30_encoding.md R85). -/
theorem writeDest_ok {s t : State} {a : Operand} {v : Word} (h : writeDest s a v = .ok t) :
    (∃ r, a = .reg r ∧ t = s.setReg r v) ∨
    (∃ d, a = .lit d ∧ d.toNat < s.params.memWords ∧ t = s.putWord d.toNat v) := by
  cases a with
  | reg r =>
    simp only [writeDest, Except.ok.injEq] at h
    exact .inl ⟨r, rfl, h.symm⟩
  | lit d =>
    by_cases hd : d.toNat < s.params.memWords
    · rw [writeDest_lit_inside v hd, Except.ok.injEq] at h
      exact .inr ⟨d, rfl, hd, h.symm⟩
    · rw [writeDest_lit_outside v (Nat.not_lt.mp hd)] at h
      cases h

/-- The only way a destination write can fail (R85): a literal outside memory. -/
theorem writeDest_error {s : State} {a : Operand} {v : Word} {e : Raised}
    (h : writeDest s a v = .error e) :
    ∃ d, a = .lit d ∧ s.params.memWords ≤ d.toNat ∧ e = ⟨.addressOutOfRange, d.setWidth 16⟩ := by
  cases a with
  | reg r => cases h
  | lit d =>
    by_cases hd : d.toNat < s.params.memWords
    · rw [writeDest_lit_inside v hd] at h
      cases h
    · rw [writeDest_lit_outside v (Nat.not_lt.mp hd), Except.error.injEq] at h
      exact ⟨d, rfl, Nat.not_lt.mp hd, h.symm⟩

/-- A destination that decoding accepts can be written (R85, R95). -/
theorem writeDest_total {s : State} {a : Operand} (v : Word)
    (h : a.destOk s.params.memWords = true) : ∃ t, writeDest s a v = .ok t := by
  cases hw : writeDest s a v with
  | ok t => exact ⟨t, rfl⟩
  | error e =>
    obtain ⟨d, rfl, hd, -⟩ := writeDest_error hw
    simp only [Operand.destOk, decide_eq_true_eq] at h
    omega

/-- What a completed destination write leaves (R85): the location holds the word, and every
other register and memory word, the stack, the status and the channels are as before. -/
theorem writeDest_effect {s t : State} {a : Operand} {v : Word} (hm : Memory.wf s.mem = true)
    (h : writeDest s a v = .ok t) :
    destWord t a = v ∧ t.pc = s.pc ∧ OnlyDest a s t ∧ t.stack = s.stack ∧ SameStatus s t ∧
      SameStreams s t ∧ SameOutside s t := by
  rcases writeDest_ok h with ⟨r, rfl, rfl⟩ | ⟨d, rfl, -, rfl⟩
  · refine ⟨by simp [destWord], rfl, ⟨fun q hq => ?_, fun _ _ => rfl⟩, rfl,
      ⟨rfl, rfl, rfl, rfl, rfl⟩, ⟨rfl, rfl, rfl⟩, ⟨rfl, rfl, rfl⟩⟩
    exact State.setReg_reg_of_ne s v (fun e => hq (by rw [e]))
  · refine ⟨by simpa [destWord] using State.putWord_word_self d.toNat v hm, rfl,
      ⟨fun _ _ => rfl, fun x hx => ?_⟩, rfl, ⟨rfl, rfl, rfl, rfl, rfl⟩, ⟨rfl, rfl, rfl⟩,
      ⟨rfl, rfl, rfl⟩⟩
    exact State.putWord_word_of_ne s v (fun e => hx (by rw [e]; rfl))

/-! ### Loading -/

/-- An image is accepted exactly when it is not empty, has an even number of bytes and fits
(20_memory.md R63). -/
theorem imageOk_iff (p : Params) (bytes : List Byte) : imageOk p bytes = true ↔
    bytes.length ≠ 0 ∧ bytes.length % 2 = 0 ∧ bytes.length / 2 ≤ p.memWords := by
  simp only [imageOk, Bool.and_eq_true, decide_eq_true_eq, and_assoc]

/-- An image has half as many words as bytes (R62). -/
theorem imageWords_length : ∀ bytes : List Byte, (imageWords bytes).length = bytes.length / 2
  | [] => rfl
  | [_] => by simp [imageWords]
  | _ :: _ :: rest => by
    simp only [imageWords, List.length_cons, imageWords_length rest]
    omega

/-! ### Steps -/

/-- Taking the event off the schedule changes nothing else. -/
@[simp] theorem State.ticked_params (s : State) : s.ticked.params = s.params := rfl
@[simp] theorem State.ticked_regs (s : State) : s.ticked.regs = s.regs := rfl
@[simp] theorem State.ticked_pc (s : State) : s.ticked.pc = s.pc := rfl
@[simp] theorem State.ticked_mem (s : State) : s.ticked.mem = s.mem := rfl
@[simp] theorem State.ticked_stack (s : State) : s.ticked.stack = s.stack := rfl
@[simp] theorem State.ticked_run (s : State) : s.ticked.run = s.run := rfl
@[simp] theorem State.ticked_haltReason (s : State) : s.ticked.haltReason = s.haltReason := rfl
@[simp] theorem State.ticked_faultCode (s : State) : s.ticked.faultCode = s.faultCode := rfl
@[simp] theorem State.ticked_faultPc (s : State) : s.ticked.faultPc = s.faultPc := rfl
@[simp] theorem State.ticked_faultInfo (s : State) : s.ticked.faultInfo = s.faultInfo := rfl
@[simp] theorem State.ticked_outputs (s : State) : s.ticked.outputs = s.outputs := rfl
@[simp] theorem State.ticked_sentBefore (s : State) : s.ticked.sentBefore = s.sentBefore := rfl
@[simp] theorem State.ticked_taken (s : State) : s.ticked.taken = s.taken := rfl
@[simp] theorem State.ticked_offered (s : State) : s.ticked.offered = s.offered := rfl
@[simp] theorem State.ticked_schedule (s : State) : s.ticked.schedule = s.schedule.tail := rfl
@[simp] theorem State.ticked_word (s : State) (x : Nat) : s.ticked.word x = s.word x := rfl
@[simp] theorem State.ticked_reg (s : State) (q : Reg) : s.ticked.reg q = s.reg q := rfl
@[simp] theorem valueOf_ticked (s : State) (o : Operand) : valueOf s.ticked o = valueOf s o := by
  cases o <;> rfl

/-- The next step is the next event's, on the state that has it off the schedule. -/
theorem step_eq (s : State) : step s = eventStep (nextEvent s) s.ticked := rfl

/-- With the host quiet, a step is the block's own. -/
theorem step_quiet {s : State} (h : HostQuiet s) : step s = ownStep s.ticked := by
  rw [step_eq, show nextEvent s = .quiet from h, eventStep]

/-- A quiet step in RUN. -/
theorem step_run {s : State} (h : HostQuiet s) (hr : s.run = .run) :
    step s = runStep s.ticked := by
  have : s.ticked.run = .run := hr
  rw [step_quiet h, ownStep, this]

/-- A quiet step in WAIT_IN. -/
theorem step_waitIn {s : State} (h : HostQuiet s) (hr : s.run = .waitIn) :
    step s = waitStep s.ticked := by
  have : s.ticked.run = .waitIn := hr
  rw [step_quiet h, ownStep, this]

/-- A fetch from outside memory gives no word (30_encoding.md R95). -/
theorem fetchWords_outside {s : State} (n : Nat) {a : Nat} (h : s.params.memWords ≤ a) :
    fetchWords s n a = [] := by
  cases n with
  | zero => rfl
  | succ n => simp [fetchWords, Nat.not_lt.mpr h]

/-- A fetch from inside memory gives the word there first (R95). -/
theorem fetchWords_inside {s : State} (n : Nat) {a : Nat} (h : a < s.params.memWords) :
    fetchWords s (n + 1) a = s.word a :: fetchWords s n (a + 1) := by
  simp [fetchWords, h]

/-- Fetching depends on the parameters and memory alone. -/
theorem fetchWords_congr {s t : State} (hp : t.params = s.params)
    (hm : ∀ x : Nat, t.word x = s.word x) (n a : Nat) : fetchWords t n a = fetchWords s n a := by
  induction n generalizing a with
  | zero => rfl
  | succ n ih => simp [fetchWords, hp, hm, ih]

/-- Decoding at pc depends on the parameters, memory and pc alone. -/
theorem decodeAt_congr {s t : State} (hp : t.params = s.params) (hc : t.pc = s.pc)
    (hm : ∀ x : Nat, t.word x = s.word x) : decodeAt t = decodeAt s := by
  rw [decodeAt, decodeAt, hp, hc, fetchWords_congr hp hm]

/-- The event of a step does not touch what is decoded. -/
@[simp] theorem decodeAt_ticked (s : State) : decodeAt s.ticked = decodeAt s :=
  decodeAt_congr rfl rfl fun _ => rfl

end Sys2Proof.Machine
end

