-- ==== Sys2Proof/Laws/Exec.lean ====
section
/-!
SUPPORT. Everything an instruction can do, said once: it completes with its effect, or it takes
a fault in the state before it. Every claim over all instructions starts from `exec_cases`.
-/

namespace Sys2Proof.Machine

/-- The completed effect of an instruction: how `t` comes from `s` when no fault is raised. -/
def Effect (i : Instr) (s t : State) : Prop :=
  match i with
  | .halt => t = (s.advance 1).enterHalted 0
  | .set a b => writeDest (s.advance 3) a (valueOf s b) = .ok t
  | .push a => s.params.stackCapacity ≠ some s.sp ∧
      t = (s.advance 2).setStack (valueOf s a :: s.stack)
  | .pop a => ∃ v rest, s.stack = v :: rest ∧
      writeDest ((s.advance 2).setStack rest) a v = .ok t
  | .eq a b c => writeDest (s.advance 4) a (aluEq (valueOf s b) (valueOf s c)) = .ok t
  | .gt a b c => writeDest (s.advance 4) a (aluGt (valueOf s b) (valueOf s c)) = .ok t
  | .jmp a => t = s.setPc (valueOf s a)
  | .jt a b => t = branch s (holds (valueOf s a)) (valueOf s b)
  | .jf a b => t = branch s (!holds (valueOf s a)) (valueOf s b)
  | .add a b c => writeDest (s.advance 4) a (aluAdd (valueOf s b) (valueOf s c)) = .ok t
  | .mult a b c => writeDest (s.advance 4) a (aluMult (valueOf s b) (valueOf s c)) = .ok t
  | .mod a b c => ∃ r, aluMod (valueOf s b) (valueOf s c) = .ok r ∧
      writeDest (s.advance 4) a r = .ok t
  | .and a b c => writeDest (s.advance 4) a (aluAnd (valueOf s b) (valueOf s c)) = .ok t
  | .or a b c => writeDest (s.advance 4) a (aluOr (valueOf s b) (valueOf s c)) = .ok t
  | .not a b => writeDest (s.advance 3) a (aluNot (valueOf s b)) = .ok t
  | .rmem a b => (valueOf s b).toNat < s.params.memWords ∧
      writeDest (s.advance 3) a (s.word (valueOf s b).toNat) = .ok t
  | .wmem a b => (valueOf s a).toNat < s.params.memWords ∧
      t = (s.advance 3).putWord (valueOf s a).toNat (valueOf s b)
  | .call a => s.params.stackCapacity ≠ some s.sp ∧
      t = (s.setStack ((s.advance 2).pc :: s.stack)).setPc (valueOf s a)
  | .ret => (s.stack = [] ∧ t = (s.advance 1).enterHalted 1) ∨
      ∃ v rest, s.stack = v :: rest ∧ t = (s.setStack rest).setPc v
  | .out a => t = (s.advance 2).send (valueOf s a)
  | .inp a => (s.run ≠ .waitIn ∧ t = s.setRun .waitIn) ∨
      (s.run = .waitIn ∧ s.offered = [] ∧ t = s) ∨
      ∃ v rest, s.run = .waitIn ∧ s.offered = v :: rest ∧
        writeDest (inputTaken s v rest) a v = .ok t
  | .noop => t = s.advance 1

/-- The fault an instruction takes at execution, and when (60_exceptions.md R241). The first
alternative is a literal destination outside memory, which decoding rejects (R95). -/
def ExecFault (i : Instr) (s : State) (e : Raised) : Prop :=
  (∃ d, destOf i = some (.lit d) ∧ s.params.memWords ≤ d.toNat ∧
    e = ⟨.addressOutOfRange, d.setWidth 16⟩) ∨
  (∃ a, i = .pop a ∧ s.stack = [] ∧ e = ⟨.stackUnderflow, 0⟩) ∨
  (∃ a b c, i = .mod a b c ∧ valueOf s c = 0 ∧ e = ⟨.divideByZero, 0⟩) ∨
  (∃ a b, i = .rmem a b ∧ s.params.memWords ≤ (valueOf s b).toNat ∧
    e = ⟨.addressOutOfRange, valueOf s b⟩) ∨
  (∃ a b, i = .wmem a b ∧ s.params.memWords ≤ (valueOf s a).toNat ∧
    e = ⟨.addressOutOfRange, valueOf s a⟩) ∨
  (∃ a, (i = .push a ∨ i = .call a) ∧ s.params.stackCapacity = some s.sp ∧
    e = ⟨.stackOverflow, 0⟩)

/-- An instruction whose last act is a destination write in `u`, a state with the parameters of
`s`: it completes with that write, or faults on a literal outside memory. -/
theorem finish_writeDest {i : Instr} {s u t : State} {a : Operand} {v : Word}
    (h : finish s (writeDest u a v) = .next t) (hi : destOf i = some a)
    (hu : u.params = s.params) :
    writeDest u a v = .ok t ∨ ∃ e, ExecFault i s e ∧ t = takeFault s e := by
  rcases finish_cases h with h | ⟨e, he, rfl⟩
  · exact .inl h
  · obtain ⟨d, rfl, hd, rfl⟩ := writeDest_error he
    exact .inr ⟨_, .inl ⟨d, hi, hu ▸ hd, rfl⟩, rfl⟩

/-- EVERYTHING AN INSTRUCTION CAN DO: its effect, or a fault of the kinds it can raise, taken in
the state before it. -/
theorem exec_cases {i : Instr} {s t : State} (h : exec i s = .next t) :
    Effect i s t ∨ ∃ e, ExecFault i s e ∧ t = takeFault s e := by
  cases i with
  | halt => exact .inl (Host.Outcome.next.inj h).symm
  | set a b => exact finish_writeDest (i := .set a b) h rfl rfl
  | push a =>
    by_cases hc : s.params.stackCapacity = some s.sp
    · rw [exec, execPush, push_full (s := s.advance 2) _ hc, finish_error] at h
      exact .inr ⟨_, .inr (.inr (.inr (.inr (.inr ⟨a, .inl rfl, hc, rfl⟩)))),
        (Host.Outcome.next.inj h).symm⟩
    · rw [exec, execPush, push_room (s := s.advance 2) _ hc, finish_ok] at h
      exact .inl ⟨hc, (Host.Outcome.next.inj h).symm⟩
  | pop a =>
    cases hs : s.stack with
    | nil =>
      have hp : pop (s.advance 2) = .error ⟨.stackUnderflow, 0⟩ := by simp [pop, hs]
      simp only [exec, execPop, hp, finish_error, Host.Outcome.next.injEq] at h
      exact .inr ⟨_, .inr (.inl ⟨a, rfl, hs, rfl⟩), h.symm⟩
    | cons v rest =>
      have hp : pop (s.advance 2) = .ok (v, (s.advance 2).setStack rest) := by simp [pop, hs]
      simp only [exec, execPop, hp] at h
      exact (finish_writeDest (i := .pop a) h rfl rfl).imp (fun w => ⟨v, rest, hs, w⟩) id
  | eq a b c => exact finish_writeDest (i := .eq a b c) h rfl rfl
  | gt a b c => exact finish_writeDest (i := .gt a b c) h rfl rfl
  | jmp a => exact .inl (Host.Outcome.next.inj h).symm
  | jt a b => exact .inl (Host.Outcome.next.inj h).symm
  | jf a b => exact .inl (Host.Outcome.next.inj h).symm
  | add a b c => exact finish_writeDest (i := .add a b c) h rfl rfl
  | mult a b c => exact finish_writeDest (i := .mult a b c) h rfl rfl
  | mod a b c =>
    by_cases hz : valueOf s c = 0
    · simp only [exec, execMod, aluMod, if_pos hz, finish_error, Host.Outcome.next.injEq] at h
      exact .inr ⟨_, .inr (.inr (.inl ⟨a, b, c, rfl, hz, rfl⟩)), h.symm⟩
    · have hr : aluMod (valueOf s b) (valueOf s c) = .ok _ := if_neg hz
      simp only [exec, execMod, hr, writeResult] at h
      exact (finish_writeDest (i := .mod a b c) h rfl rfl).imp (fun w => ⟨_, hr, w⟩) id
  | and a b c => exact finish_writeDest (i := .and a b c) h rfl rfl
  | or a b c => exact finish_writeDest (i := .or a b c) h rfl rfl
  | not a b => exact finish_writeDest (i := .not a b) h rfl rfl
  | rmem a b =>
    by_cases hm : (valueOf s b).toNat < s.params.memWords
    · simp only [exec, execRmem, memRead_inside hm] at h
      exact (finish_writeDest (i := .rmem a b) h rfl rfl).imp (fun w => ⟨hm, w⟩) id
    · have hm' := Nat.not_lt.mp hm
      simp only [exec, execRmem, memRead_outside hm', finish_error,
        Host.Outcome.next.injEq] at h
      exact .inr ⟨_, .inr (.inr (.inr (.inl ⟨a, b, rfl, hm', rfl⟩))), h.symm⟩
  | wmem a b =>
    by_cases hm : (valueOf s a).toNat < s.params.memWords
    · simp only [exec, execWmem, memWrite_inside (s := s.advance 3) _ hm, finish_ok,
        Host.Outcome.next.injEq] at h
      exact .inl ⟨hm, h.symm⟩
    · have hm' := Nat.not_lt.mp hm
      simp only [exec, execWmem, memWrite_outside (s := s.advance 3) _ hm', finish_error,
        Host.Outcome.next.injEq] at h
      exact .inr ⟨_, .inr (.inr (.inr (.inr (.inl ⟨a, b, rfl, hm', rfl⟩)))), h.symm⟩
  | call a =>
    by_cases hc : s.params.stackCapacity = some s.sp
    · simp only [exec, execCall, push_full (s := s) _ hc, finish_error,
        Host.Outcome.next.injEq] at h
      exact .inr ⟨_, .inr (.inr (.inr (.inr (.inr ⟨a, .inr rfl, hc, rfl⟩)))), h.symm⟩
    · simp only [exec, execCall, push_room (s := s) _ hc, finish_ok,
        Host.Outcome.next.injEq] at h
      exact .inl ⟨hc, h.symm⟩
  | ret =>
    cases hs : s.stack with
    | nil =>
      simp only [exec, execRet, hs, Host.Outcome.next.injEq] at h
      exact .inl (.inl ⟨hs, h.symm⟩)
    | cons v rest =>
      simp only [exec, execRet, hs, Host.Outcome.next.injEq] at h
      exact .inl (.inr ⟨v, rest, hs, h.symm⟩)
  | out a => exact .inl (Host.Outcome.next.inj h).symm
  | inp a =>
    by_cases hr : s.run = .waitIn
    · cases ho : s.offered with
      | nil =>
        simp only [exec, execIn, if_pos hr, ho, Host.Outcome.next.injEq] at h
        exact .inl (.inr (.inl ⟨hr, ho, h.symm⟩))
      | cons v rest =>
        simp only [exec, execIn, if_pos hr, ho] at h
        exact (finish_writeDest (i := .inp a) h rfl rfl).imp
          (fun w => .inr (.inr ⟨v, rest, hr, ho, w⟩)) id
    · simp only [exec, execIn, if_neg hr, Host.Outcome.next.injEq] at h
      exact .inl (.inl ⟨hr, h.symm⟩)
  | noop => exact .inl (Host.Outcome.next.inj h).symm

/-- An instruction always answers a next state: it never ends in the model's own Fault or
Refusal. -/
theorem exec_next (i : Instr) (s : State) : ∃ t, exec i s = .next t := by
  have hf : ∀ r, ∃ t, finish s r = .next t := by
    intro r
    cases r <;> exact ⟨_, rfl⟩
  cases i with
  | pop a =>
    rw [exec, execPop]
    split <;> exact hf _
  | mod a b c =>
    rw [exec, execMod]
    split <;> exact hf _
  | rmem a b =>
    rw [exec, execRmem]
    split <;> exact hf _
  | call a =>
    rw [exec, execCall]
    split <;> exact hf _
  | ret =>
    rw [exec, execRet]
    split <;> exact ⟨_, rfl⟩
  | inp a =>
    rw [exec, execIn]
    split
    · split
      · exact ⟨_, rfl⟩
      · exact hf _
    · exact ⟨_, rfl⟩
  | halt | jmp _ | jt _ _ | jf _ _ | out _ | noop => exact ⟨_, rfl⟩
  | set _ _ | push _ | eq _ _ _ | gt _ _ _ | add _ _ _ | mult _ _ _ | and _ _ _ | or _ _ _
  | not _ _ | wmem _ _ => exact hf _

/-- No instruction raises LoadError (60_exceptions.md R240). -/
theorem ExecFault.kind_ne {i : Instr} {s : State} {e : Raised} (h : ExecFault i s e) :
    e.kind ≠ .loadError := by
  rcases h with ⟨_, _, _, rfl⟩ | ⟨_, _, _, rfl⟩ | ⟨_, _, _, _, _, rfl⟩ | ⟨_, _, _, _, rfl⟩ |
    ⟨_, _, _, _, rfl⟩ | ⟨_, _, _, rfl⟩ <;> simp

/-- Nor does decoding. -/
theorem decodeFault_kind_ne (a : Word) (e : DecodeError) :
    (decodeFault a e).kind ≠ .loadError := by
  cases e <;> simp [decodeFault]

/-- The code of every fault but LoadError is from 1 to 6 (R240). -/
theorem FaultKind.code_bounds {k : FaultKind} (h : k ≠ .loadError) :
    1 ≤ k.code.toNat ∧ k.code.toNat ≤ 6 := by
  cases k <;> first | exact absurd rfl h | decide

end Sys2Proof.Machine
end

