-- ==== Sys2Proof/Laws/PerInstr.lean ====
section
/-!
SUPPORT. Statements for all instructions as syntax, one lemma per constructor.
-/

namespace Sys2Proof.Laws.EncodeLength

/-- An instruction is encoded in as many words as its length says, 1 to 4 of them (30_encoding.md
R80, R92), and its first word, the opcode, is at most 21 (R82). -/
def Statement (i : Instr) : Prop :=
  (encode i).length = i.length ∧ 1 ≤ i.length ∧ i.length ≤ 4 ∧ ((encode i).headD 22).toNat ≤ 21

/-- The four facts from four evaluations. -/
theorem of_checks {i : Instr} (len : (encode i).length = i.length)
    (low : Nat.ble 1 i.length = true) (high : Nat.ble i.length 4 = true)
    (opcode : Nat.ble ((encode i).headD 22).toNat 21 = true) : Statement i :=
  ⟨len, Nat.le_of_ble_eq_true low, Nat.le_of_ble_eq_true high, Nat.le_of_ble_eq_true opcode⟩

theorem halt : Statement .halt :=
  of_checks rfl rfl rfl rfl
theorem set (a b : Operand) : Statement (.set a b) :=
  of_checks rfl rfl rfl rfl
theorem push (a : Operand) : Statement (.push a) :=
  of_checks rfl rfl rfl rfl
theorem pop (a : Operand) : Statement (.pop a) :=
  of_checks rfl rfl rfl rfl
theorem eq (a b c : Operand) : Statement (.eq a b c) :=
  of_checks rfl rfl rfl rfl
theorem gt (a b c : Operand) : Statement (.gt a b c) :=
  of_checks rfl rfl rfl rfl
theorem jmp (a : Operand) : Statement (.jmp a) :=
  of_checks rfl rfl rfl rfl
theorem jt (a b : Operand) : Statement (.jt a b) :=
  of_checks rfl rfl rfl rfl
theorem jf (a b : Operand) : Statement (.jf a b) :=
  of_checks rfl rfl rfl rfl
theorem add (a b c : Operand) : Statement (.add a b c) :=
  of_checks rfl rfl rfl rfl
theorem mult (a b c : Operand) : Statement (.mult a b c) :=
  of_checks rfl rfl rfl rfl
theorem mod (a b c : Operand) : Statement (.mod a b c) :=
  of_checks rfl rfl rfl rfl
theorem and (a b c : Operand) : Statement (.and a b c) :=
  of_checks rfl rfl rfl rfl
theorem or (a b c : Operand) : Statement (.or a b c) :=
  of_checks rfl rfl rfl rfl
theorem not (a b : Operand) : Statement (.not a b) :=
  of_checks rfl rfl rfl rfl
theorem rmem (a b : Operand) : Statement (.rmem a b) :=
  of_checks rfl rfl rfl rfl
theorem wmem (a b : Operand) : Statement (.wmem a b) :=
  of_checks rfl rfl rfl rfl
theorem call (a : Operand) : Statement (.call a) :=
  of_checks rfl rfl rfl rfl
theorem ret : Statement .ret :=
  of_checks rfl rfl rfl rfl
theorem out (a : Operand) : Statement (.out a) :=
  of_checks rfl rfl rfl rfl
theorem inp (a : Operand) : Statement (.inp a) :=
  of_checks rfl rfl rfl rfl
theorem noop : Statement .noop :=
  of_checks rfl rfl rfl rfl

end Sys2Proof.Laws.EncodeLength
end

