-- ==== Sys2Proof/Laws/Step.lean ====
section
/-!
SUPPORT. What a completed instruction keeps, and everything a step can do, each said once.
-/

namespace Sys2Proof.Machine

/-- What a destination write keeps whatever its location: all but one register or one word of
memory inside the address space. -/
theorem writeDest_keeps {s t : State} {a : Operand} {v : Word} (h : writeDest s a v = .ok t) :
    t.pc = s.pc ∧ t.stack = s.stack ∧ t.run = s.run ∧ t.haltReason = s.haltReason ∧
    t.faultCode = s.faultCode ∧ t.faultPc = s.faultPc ∧ t.faultInfo = s.faultInfo ∧
    SameStreams s t ∧ SameOutside s t ∧
    (t.mem = s.mem ∨ ∃ x w, x < s.params.memWords ∧ t.mem = Memory.write s.mem x w) := by
  rcases writeDest_ok h with ⟨r, -, rfl⟩ | ⟨d, -, hd, rfl⟩
  · exact ⟨rfl, rfl, rfl, rfl, rfl, rfl, rfl, ⟨rfl, rfl, rfl⟩, ⟨rfl, rfl, rfl⟩, .inl rfl⟩
  · exact ⟨rfl, rfl, rfl, rfl, rfl, rfl, rfl, ⟨rfl, rfl, rfl⟩, ⟨rfl, rfl, rfl⟩,
      .inr ⟨_, _, hd, rfl⟩⟩

/-- A jump changes pc alone. -/
theorem branch_eq (s : State) (b : Bool) (t : Word) :
    branch s b t = s.setPc (if b then t else s.pc + 3) := by
  cases b <;> rfl

/-- Everything a step can do, by the host's event and the run state. -/
theorem step_cases {s t : State} (h : step s = .next t) :
    (nextEvent s = .reset ∧ t = hostReset s.ticked) ∨
    (∃ bytes, nextEvent s = .loadImage bytes ∧ t = loadImage s.ticked bytes) ∨
    (∃ v, nextEvent s = .offer v ∧ t = offerInput s.ticked v) ∨
    (HostQuiet s ∧ s.run ≠ .run ∧ s.run ≠ .waitIn ∧ t = s.ticked) ∨
    (HostQuiet s ∧ s.run = .run ∧ ∃ e, decodeAt s = .error e ∧
      t = takeFault s.ticked (decodeFault s.pc e)) ∨
    (HostQuiet s ∧ s.run = .run ∧ ∃ i, decodeAt s = .ok i ∧ exec i s.ticked = .next t) ∨
    (HostQuiet s ∧ s.run = .waitIn ∧ ∃ a, decodeAt s = .ok (.inp a) ∧
      exec (.inp a) s.ticked = .next t) := by
  cases e : nextEvent s with
  | reset =>
    rw [step_eq, e, eventStep] at h
    exact .inl ⟨rfl, (Host.Outcome.next.inj h).symm⟩
  | loadImage bytes =>
    rw [step_eq, e, eventStep] at h
    exact .inr (.inl ⟨bytes, rfl, (Host.Outcome.next.inj h).symm⟩)
  | offer v =>
    rw [step_eq, e, eventStep] at h
    exact .inr (.inr (.inl ⟨v, rfl, (Host.Outcome.next.inj h).symm⟩))
  | quiet =>
    have hq : HostQuiet s := e
    refine .inr (.inr (.inr ?_))
    by_cases hr : s.run = .run
    · rw [step_run hq hr, runStep, decodeAt_ticked] at h
      cases hd : decodeAt s with
      | ok i =>
        rw [hd] at h
        exact .inr (.inr (.inl ⟨hq, hr, i, rfl, h⟩))
      | error f =>
        rw [hd] at h
        exact .inr (.inl ⟨hq, hr, f, rfl, (Host.Outcome.next.inj h).symm⟩)
    · by_cases hw : s.run = .waitIn
      · rw [step_waitIn hq hw, waitStep, decodeAt_ticked] at h
        cases hd : decodeAt s with
        | ok i =>
          rw [hd] at h
          cases i with
          | inp a => exact .inr (.inr (.inr ⟨hq, hw, a, rfl, h⟩))
          | _ => cases h
        | error f =>
          rw [hd] at h
          cases h
      · rw [step_quiet hq, ownStep, State.ticked_run] at h
        refine .inl ⟨hq, hr, hw, ?_⟩
        cases hs : s.run <;> rw [hs] at h
        · exact (Host.Outcome.next.inj h).symm
        · exact absurd hs hr
        · exact absurd hs hw
        · exact (Host.Outcome.next.inj h).symm
        · exact (Host.Outcome.next.inj h).symm
        · exact (Host.Outcome.next.inj h).symm

end Sys2Proof.Machine
end

