-- ==== Sys2Proof/Laws/Run.lean ====
section
/-!
SUPPORT. The laws of runs (70_reset_and_hazards.md R280): a stretch of a run can be cut and
joined, and where a number of steps leads is fixed.
-/

namespace Sys2Proof.Machine

/-- A stretch of `m + n` steps is one of `m` steps and then one of `n`. -/
theorem within_add {m n : Nat} {s t : State} :
    Within (m + n) s t ↔ ∃ u, Within m s u ∧ Within n u t := by
  induction m generalizing s with
  | zero => simp [Within]
  | succ m ih =>
    rw [Nat.add_right_comm]
    constructor
    · rintro ⟨he, v, hv, h⟩
      obtain ⟨u, h1, h2⟩ := ih.mp h
      exact ⟨u, ⟨he, v, hv, h1⟩, h2⟩
    · rintro ⟨u, ⟨he, v, hv, h1⟩, h2⟩
      exact ⟨he, v, hv, ih.mpr ⟨u, h1, h2⟩⟩

/-- Where `n` steps lead is fixed (30_encoding.md R98). -/
theorem within_unique {n : Nat} {s t u : State} (ht : Within n s t) (hu : Within n s u) :
    u = t := by
  induction n generalizing s with
  | zero => rw [show t = s from ht, show u = s from hu]
  | succ n ih =>
    obtain ⟨-, v, hv, h⟩ := ht
    obtain ⟨-, w, hw, h'⟩ := hu
    rw [hv, Host.Outcome.next.injEq] at hw
    exact ih h (hw ▸ h')

/-- A block that stays in a run state is in it, sees no Reset, and stays in it after a step. -/
theorem staysIn_step {r : RunState} {s : State} (h : StaysIn r s) :
    s.run = r ∧ nextEvent s ≠ .reset ∧ ∃ u, step s = .next u ∧ StaysIn r u := by
  obtain ⟨s', hs, hr⟩ := h 0
  obtain ⟨-, ⟨he, u, hu, -⟩, -⟩ := h 1
  refine ⟨by rw [← show s' = s from hs]; exact hr, he, u, hu, fun n => ?_⟩
  obtain ⟨t, ⟨-, v, hv, ht⟩, htr⟩ := h (n + 1)
  rw [hu, Host.Outcome.next.injEq] at hv
  exact ⟨t, hv ▸ ht, htr⟩

/-- What holds of a state and is kept by its steps, with no Reset among them and the run state
fixed, makes the block stay in that run state. -/
theorem staysIn_of_inv {r : RunState} (P : State → Prop) (hr : ∀ s, P s → s.run = r)
    (hstep : ∀ s, P s → nextEvent s ≠ .reset ∧ ∃ u, step s = .next u ∧ P u) {s : State}
    (h : P s) : StaysIn r s := by
  intro n
  induction n generalizing s with
  | zero => exact ⟨s, rfl, hr s h⟩
  | succ n ih =>
    obtain ⟨he, u, hu, hP⟩ := hstep s h
    obtain ⟨t, ht, htr⟩ := ih hP
    exact ⟨t, ⟨he, u, hu, ht⟩, htr⟩

end Sys2Proof.Machine
end

