-- ==== Sys2Proof/Tests/Slice0.lean ====
section
/-!
SUPPORT. The model's own tests. Expected results come from the spec's vectors
(95_test_vectors.md, whose ids are named) or are worked out by hand from its rules. Then one
witness for every statement of Certificates/Slice0/Obligations.lean that has hypotheses.
-/

namespace Sys2Proof.Tests

open Sys2Proof.Machine

/-! ### Helpers -/

/-- The state after a successful load of these words (default parameters). -/
def loaded (ws : List Word) : State :=
  { State.reset with run := .run, mem := Memory.ofWords 0 ws }

/-- The same with MEM_WORDS and STACK_CAPACITY chosen. -/
def small (memWords : Nat) (cap : Option Nat) (ws : List Word) : State :=
  { loaded ws with params := { memWords := memWords, stackCapacity := cap } }

/-- The state after one step, or reset where the step stops. -/
def after (s : State) : State :=
  match step s with
  | .next t => t
  | .fault _ => State.reset
  | .refused _ => State.reset

/-- The fault record as the vectors write it: (fault_code, fault_pc, fault_info). -/
def record (s : State) : Nat × Nat × Nat :=
  (s.faultCode.toNat, s.faultPc.toNat, s.faultInfo.toNat)

/-! ### Well-formedness: an ill-formed term for each check -/

/-- With MEM_WORDS = 8 a literal destination 8 is refused, for each instruction that has a
destination, and 7 is not (R95). -/
theorem test_literal_destination_outside_is_ill_formed :
    [Instr.set (.lit 8) (.lit 0), .pop (.lit 8), .eq (.lit 8) (.lit 0) (.lit 0),
      .gt (.lit 8) (.lit 0) (.lit 0), .add (.lit 8) (.lit 0) (.lit 0),
      .mult (.lit 8) (.lit 0) (.lit 0), .mod (.lit 8) (.lit 0) (.lit 0),
      .and (.lit 8) (.lit 0) (.lit 0), .or (.lit 8) (.lit 0) (.lit 0),
      .not (.lit 8) (.lit 0), .rmem (.lit 8) (.lit 0), .inp (.lit 8)].all
        (fun i => !i.wellFormed 8) = true := by decide

theorem test_literal_destination_inside_is_well_formed :
    (Instr.set (.lit 7) (.lit 0)).wellFormed 8 = true := by decide

/-- The parameters R5 excludes. -/
theorem test_parameters_outside_R5_are_ill_formed :
    Params.wf ⟨0, none⟩ = false ∧ Params.wf ⟨32769, none⟩ = false ∧
    Params.wf ⟨8, some 0⟩ = false ∧ Params.wf ⟨1, some 1⟩ = true := by decide

/-! ### Decoding: words written out from R81, R83, R88, a register i as 32768 + i -/

theorem test_decode_data_movement :
    decode 32768 [1, 32769, 65] = .ok (.set (.reg 1) (.lit 65)) ∧
    decode 32768 [2, 7] = .ok (.push (.lit 7)) ∧
    decode 32768 [3, 32770] = .ok (.pop (.reg 2)) ∧
    decode 32768 [15, 32768, 100] = .ok (.rmem (.reg 0) (.lit 100)) ∧
    decode 32768 [16, 32768, 32769] = .ok (.wmem (.reg 0) (.reg 1)) := by decide

theorem test_decode_alu :
    decode 32768 [4, 30, 1, 32775] = .ok (.eq (.lit 30) (.lit 1) (.reg 7)) ∧
    decode 32768 [5, 32768, 3, 2] = .ok (.gt (.reg 0) (.lit 3) (.lit 2)) ∧
    decode 32768 [9, 32768, 32769, 4] = .ok (.add (.reg 0) (.reg 1) (.lit 4)) ∧
    decode 32768 [10, 32768, 200, 201] = .ok (.mult (.reg 0) (.lit 200) (.lit 201)) ∧
    decode 32768 [11, 32769, 32768, 1000] = .ok (.mod (.reg 1) (.reg 0) (.lit 1000)) ∧
    decode 32768 [12, 32771, 32770, 255] = .ok (.and (.reg 3) (.reg 2) (.lit 255)) ∧
    decode 32768 [13, 32772, 32771, 256] = .ok (.or (.reg 4) (.reg 3) (.lit 256)) ∧
    decode 32768 [14, 32770, 32769] = .ok (.not (.reg 2) (.reg 1)) := by decide

theorem test_decode_control :
    decode 32768 [0] = .ok .halt ∧
    decode 32768 [6, 10] = .ok (.jmp (.lit 10)) ∧
    decode 32768 [7, 32768, 20] = .ok (.jt (.reg 0) (.lit 20)) ∧
    decode 32768 [8, 32768, 20] = .ok (.jf (.reg 0) (.lit 20)) ∧
    decode 32768 [17, 32769] = .ok (.call (.reg 1)) ∧
    decode 32768 [18] = .ok .ret ∧
    decode 32768 [21] = .ok .noop := by decide

theorem test_decode_io :
    decode 32768 [19, 72] = .ok (.out (.lit 72)) ∧
    decode 32768 [20, 32771] = .ok (.inp (.reg 3)) := by decide

/-- R81: the second word of a table row is its bits 31..16. `add r0, r1, 4` has the words 9,
8000H, 8001H, 4. -/
theorem test_decodeTableWord :
    decodeTableWord 64 0x0004800180000009 = some (.add (.reg 0) (.reg 1) (.lit 4)) ∧
    decodeTableWord 16 9 = some (.add (.lit 0) (.lit 0) (.lit 0)) ∧
    decodeTableWord 16 22 = none := by decide

/-- DE-1 and DE-2: the opcode word is not resolved. -/
theorem test_invalid_opcode :
    record (after (loaded [32768])) = (1, 0, 32768) ∧
    record (after (loaded [65535])) = (1, 0, 65535) := by decide

/-- DE-3, DE-6, DE-10: every operand is checked, the leftmost failure is reported. -/
theorem test_invalid_operand :
    record (after (loaded [1, 32776, 5])) = (2, 0, 32776) ∧
    record (after (loaded [7, 0, 40000])) = (2, 0, 40000) ∧
    record (after (loaded [9, 32776, 32777, 1])) = (2, 0, 32776) := by decide

/-- DE-7 (after its jump) and DE-8, with MEM_WORDS = 8. -/
theorem test_address_out_of_range_in_decode :
    record (after ((small 8 none [6, 7, 0, 0, 0, 0, 0, 6]).setPc 7)) = (5, 7, 8) ∧
    (after ((small 8 none [6, 7, 0, 0, 0, 0, 0, 6]).setPc 7)).pc = 7 ∧
    record (after (small 8 none [1, 10, 99, 0])) = (5, 0, 10) := by decide

/-- The first instruction after reset, placed by withFetchWord: `add r0, r1, 4`. -/
theorem test_withFetchWord_runs :
    (after (State.reset.withFetchWord 64 0x0004800180000009)).reg 0 = 4 ∧
    (after (State.reset.withFetchWord 64 0x0004800180000009)).pc = 4 := by decide

/-! ### Data movement -/

/-- DM-3: a literal destination writes memory. -/
theorem test_set_literal_destination :
    (after (loaded [1, 100, 5])).word 100 = 5 ∧ (after (loaded [1, 100, 5])).pc = 3 := by decide

/-- DM-4: a wide value is copied unchanged. -/
theorem test_set_copies_wide :
    (after ((loaded [1, 32768, 32769]).setReg 1 40000)).reg 0 = 40000 := by decide

/-- DM-6. -/
theorem test_push_register :
    (after ((loaded [2, 32768]).setReg 0 9)).stack = [9] := by decide

/-- DM-17: the third push with STACK_CAPACITY = 2. -/
theorem test_push_overflows :
    record (after (((small 32768 (some 2) [2, 1, 2, 2, 2, 3]).setStack [2, 1]).setPc 4)) =
      (6, 4, 0) ∧
    (after (((small 32768 (some 2) [2, 1, 2, 2, 2, 3]).setStack [2, 1]).setPc 4)).stack =
      [2, 1] := by decide

/-- DM-7: the stack [5, 9] of the spec has 9 on top. -/
theorem test_pop_takes_the_top :
    (after ((loaded [3, 32770]).setStack [9, 5])).reg 2 = 9 ∧
    (after ((loaded [3, 32770]).setStack [9, 5])).stack = [5] := by decide

/-- L1-7. -/
theorem test_pop_empty_faults :
    record (after (loaded [3, 32768])) = (3, 0, 0) ∧
    (after (loaded [3, 32768])).run = .faulted := by decide

/-- DM-13: memory to memory. -/
theorem test_rmem_to_memory :
    (after ((loaded [15, 10, 3]).putWord 3 77)).word 10 = 77 := by decide

/-- DM-12. -/
theorem test_rmem_outside_faults :
    record (after ((loaded [15, 32769, 32768]).setReg 0 40000)) = (5, 0, 40000) := by decide

/-- DM-15: the register supplies the address and is not written. -/
theorem test_wmem_through_register :
    (after (((loaded [16, 32768, 32769]).setReg 0 300).setReg 1 7)).word 300 = 7 ∧
    (after (((loaded [16, 32768, 32769]).setReg 0 300).setReg 1 7)).reg 0 = 300 := by decide

/-- DM-18: a wmem that overwrites its own operand word runs as fetched, and a word of 0 leaves
the memory's list. -/
theorem test_wmem_own_word :
    (after (loaded [16, 1, 0, 0])).pc = 3 ∧ (after (loaded [16, 1, 0, 0])).mem = [(0, 16)] := by
  decide

/-! ### ALU -/

/-- AL-38, and AL-54 for the literal destination. -/
theorem test_eq :
    (after ((loaded [4, 32768, 32769, 32769]).setReg 1 40000)).reg 0 = 1 ∧
    (after (loaded [4, 30, 1, 1])).word 30 = 1 := by decide

/-- AL-43 and AL-41: unsigned and strict. -/
theorem test_gt :
    (after ((loaded [5, 32768, 32769, 32767]).setReg 1 32768)).reg 0 = 1 ∧
    (after (loaded [5, 32768, 2, 2])).reg 0 = 0 := by decide

/-- AL-7: 65535 + 65535. -/
theorem test_add_reduces :
    (after ((loaded [9, 32768, 32769, 32769]).setReg 1 65535)).reg 0 = 32766 := by decide

/-- AL-53: the same register as sources and destination. -/
theorem test_add_reads_before_writing :
    (after ((loaded [9, 32768, 32768, 32768]).setReg 0 3)).reg 0 = 6 := by decide

/-- AL-14 and AL-15. -/
theorem test_mult_reduces :
    (after (loaded [10, 32768, 181, 181])).reg 0 = 32761 ∧
    (after ((loaded [10, 32768, 32769, 32769]).setReg 1 65535)).reg 0 = 1 := by decide

/-- AL-23: not reduced. -/
theorem test_mod_wide :
    (after (((loaded [11, 32768, 32769, 32770]).setReg 1 40000).setReg 2 50000)).reg 0 =
      40000 := by decide

/-- AL-25. -/
theorem test_mod_by_zero_faults :
    record (after ((loaded [11, 32768, 5, 0]).setReg 0 7)) = (4, 0, 0) ∧
    (after ((loaded [11, 32768, 5, 0]).setReg 0 7)).reg 0 = 7 := by decide

/-- AL-29 and AL-26. -/
theorem test_and :
    (after (((loaded [12, 32768, 32769, 32770]).setReg 1 65535).setReg 2 32769)).reg 0 =
      32769 ∧
    (after (loaded [12, 32768, 0x1234, 0x00FF])).reg 0 = 52 := by decide

/-- AL-34 and AL-33. -/
theorem test_or :
    (after ((loaded [13, 32768, 32769, 1]).setReg 1 32768)).reg 0 = 32769 ∧
    (after (loaded [13, 32768, 0x5555, 0x2AAA])).reg 0 = 32767 := by decide

/-- AL-52 and AL-48: bit 15 is ignored and cleared. -/
theorem test_not :
    (after ((loaded [14, 32768, 32769]).setReg 1 32769)).reg 0 = 32766 ∧
    (after (loaded [14, 32768, 0x5555])).reg 0 = 10922 := by decide

/-! ### Control transfer -/

/-- C-1. -/
theorem test_halt :
    (after (loaded [0])).pc = 1 ∧ (after (loaded [0])).run = .halted ∧
    (after (loaded [0])).haltReason = 0 := by decide

/-- C-13: the jump to 50000 completes, and the fetch there faults. -/
theorem test_jmp_outside :
    (after ((loaded [6, 32768]).setReg 0 50000)).pc = 50000 ∧
    record (after (after ((loaded [6, 32768]).setReg 0 50000))) = (5, 50000, 50000) := by decide

/-- C-7 and C-4. -/
theorem test_jt :
    (after ((loaded [7, 32768, 20]).setReg 0 40000)).pc = 20 ∧
    (after (loaded [7, 32768, 20])).pc = 3 := by decide

/-- C-5 and C-6. -/
theorem test_jf :
    (after (loaded [8, 32768, 20])).pc = 20 ∧
    (after ((loaded [8, 32768, 20]).setReg 0 1)).pc = 3 := by decide

/-- C-9: at A = 10. -/
theorem test_call_register :
    (after (({ loaded [] with mem := [(10, 17), (11, 32769)], pc := 10 } : State).setReg 1
      50)).pc = 50 ∧
    (after (({ loaded [] with mem := [(10, 17), (11, 32769)], pc := 10 } : State).setReg 1
      50)).stack = [12] := by decide

/-- C-14: the fourth call. -/
theorem test_call_overflows :
    record (after ((small 32768 (some 3) [17, 0]).setStack [2, 2, 2])) = (6, 0, 0) := by decide

/-- C-10. -/
theorem test_ret :
    (after ((loaded [18]).setStack [12])).pc = 12 ∧
    (after ((loaded [18]).setStack [12])).stack = [] := by decide

/-- C-11. -/
theorem test_ret_empty_halts :
    (after (loaded [18])).run = .halted ∧ (after (loaded [18])).haltReason = 1 ∧
    (after (loaded [18])).pc = 1 ∧ (after (loaded [18])).faultCode = 0 := by decide

/-- R196: nothing but pc. -/
theorem test_noop : after (loaded [21]) = (loaded [21]).setPc 1 := by decide

/-! ### Input and output -/

/-- IO-3: the full word. -/
theorem test_out :
    (after ((loaded [19, 32768]).setReg 0 40000)).outputs = [40000] ∧
    (after ((loaded [19, 32768]).setReg 0 40000)).pc = 2 := by decide

/-- IO-4: first the wait with pc at the `in`, then the word. -/
theorem test_in :
    (after ((loaded [20, 32771]).setOffered [104, 105])).pc = 0 ∧
    (after ((loaded [20, 32771]).setOffered [104, 105])).run = .waitIn ∧
    (after (after ((loaded [20, 32771]).setOffered [104, 105]))).reg 3 = 104 ∧
    (after (after ((loaded [20, 32771]).setOffered [104, 105]))).pc = 2 ∧
    (after (after ((loaded [20, 32771]).setOffered [104, 105]))).run = .run ∧
    (after (after ((loaded [20, 32771]).setOffered [104, 105]))).offered = [105] := by decide

/-- IO-5 and IO-7: without input it waits, and a bad operand faults before any wait. -/
theorem test_in_waits_or_faults :
    after (after (loaded [20, 32771])) = (loaded [20, 32771]).setRun .waitIn ∧
    record (after ((loaded [20, 32776]).setOffered [1])) = (2, 0, 32776) ∧
    (after ((loaded [20, 32776]).setOffered [1])).offered = [1] := by decide

/-! ### The host's events -/

/-- LD-2 with L1-10's byte order, then LD-4, LD-5 and LD-6. -/
theorem test_load :
    (after (State.reset.setSchedule [.loadImage [0x00, 0x80, 0x41, 0x00]])).word 0 = 32768 ∧
    (after (State.reset.setSchedule [.loadImage [0x00, 0x80, 0x41, 0x00]])).word 1 = 65 ∧
    (after (State.reset.setSchedule [.loadImage [0x00, 0x80, 0x41, 0x00]])).run = .run ∧
    (after (State.reset.setSchedule [.loadImage [0x00]])).run = .loadFailed ∧
    record (after (State.reset.setSchedule [.loadImage []])) = (7, 0, 0) ∧
    (after (({ State.reset with params := ⟨8, none⟩ } : State).setSchedule
      [.loadImage (List.replicate 18 0)])).run = .loadFailed := by decide

/-- R62 outside IDLE, and R270 while an `in` waits. -/
theorem test_load_ignored_and_reset :
    after ((loaded [21]).setSchedule [.loadImage [0, 0]]) = loaded [21] ∧
    after (((loaded [20, 32768]).setRun .waitIn).setSchedule [.reset]) = State.reset := by decide

/-- The encodings of R37 and R240. -/
theorem test_encodings :
    [RunState.idle, .run, .waitIn, .halted, .faulted, .loadFailed].map RunState.code =
      [0, 1, 2, 3, 4, 5] ∧
    [FaultKind.invalidOpcode, .invalidOperand, .stackUnderflow, .divideByZero,
      .addressOutOfRange, .stackOverflow, .loadError].map FaultKind.code =
      [1, 2, 3, 4, 5, 6, 7] := by decide

/-- R270, R280: the words of an earlier run remain sent, and a new run starts with none. -/
theorem test_runs_keep_their_own_words :
    (after (((loaded [0]).send 72).setSchedule [.reset])).outputs = [] ∧
    (after (((loaded [0]).send 72).setSchedule [.reset])).sentBefore = [72] ∧
    (after (after (((loaded [0]).send 72).setSchedule
      [.reset, .loadImage [19, 0, 5, 0]]))).outputs = [] ∧
    (after (after (after (((loaded [0]).send 72).setSchedule
      [.reset, .loadImage [19, 0, 5, 0]])))).outputs = [5] ∧
    (after (after (after (((loaded [0]).send 72).setSchedule
      [.reset, .loadImage [19, 0, 5, 0]])))).allSent = [72, 5] := by decide

/-- The canonical form: writing 0 removes an entry, and a new entry goes in its place. -/
theorem test_memory_write :
    Memory.write [(1, 5), (3, 7)] 1 0 = [(3, 7)] ∧
    Memory.write [(1, 5), (3, 7)] 2 9 = [(1, 5), (2, 9), (3, 7)] ∧
    Memory.wf [(1, 5), (1, 6)] = false ∧ Memory.wf [(1, 0)] = false := by decide

/-! ### Witnesses: for each statement with hypotheses, a state that meets them -/

theorem witness_DecodeEncodeRoundTrip :
    (Instr.add (.lit 7) (.reg 7) (.lit 32767)).wellFormed 8 = true := by decide

theorem witness_DecodedWordsAreTheEncoding :
    decode 8 [1, 7, 32775, 99] = .ok (.set (.lit 7) (.reg 7)) := by decide

/-- Each clause at the ends of its range. -/
theorem witness_OperandWordsResolve :
    (0 : Word).toNat ≤ 32767 ∧ (32767 : Word).toNat ≤ 32767 ∧
    (32768 ≤ (32768 : Word).toNat ∧ (32768 : Word).toNat ≤ 32775) ∧
    (32768 ≤ (32775 : Word).toNat ∧ (32775 : Word).toNat ≤ 32775) ∧
    32776 ≤ (32776 : Word).toNat ∧ 32776 ≤ (65535 : Word).toNat := by decide

/-- A decode that succeeds up to the last word of memory, one that runs off it, one whose
literal destination is the first address outside. -/
theorem witness_DecodeIsTheSpecProcedure :
    specDecode (small 3 none [1, 2, 5]) = .ok [1, 2, 5] ∧
    specDecode (small 2 none [1, 1]) = .error ⟨.addressOutOfRange, 2⟩ ∧
    specDecode (small 3 none [1, 3, 5]) = .error ⟨.addressOutOfRange, 3⟩ := by decide

theorem witness_FailedDecodeTakesItsFault :
    HostQuiet (small 3 none [1, 3, 5]) ∧ (small 3 none [1, 3, 5]).run = .run ∧
    specDecode (small 3 none [1, 3, 5]) = .error ⟨.addressOutOfRange, 3⟩ := by
  unfold HostQuiet
  decide

theorem witness_PcNeverWraps :
    (small 32768 none [21]).params.wf = true ∧ decodeAt (loaded [21]) = .ok .noop ∧
    decodeAt ((loaded []).setPc 32767) = .ok .halt := by decide

theorem witness_InvalidOpcodeFaults :
    HostQuiet (loaded [22]) ∧ (loaded [22]).run = .run ∧
    (loaded [22]).pc.toNat < (loaded [22]).params.memWords ∧
    21 < ((loaded [22]).word (loaded [22]).pc.toNat).toNat := by
  unfold HostQuiet
  decide

theorem witness_FetchOutsideMemoryFaults :
    HostQuiet ((loaded []).setPc 32768) ∧ ((loaded []).setPc 32768).run = .run ∧
    ((loaded []).setPc 32768).params.memWords ≤ ((loaded []).setPc 32768).pc.toNat := by
  unfold HostQuiet
  decide

theorem witness_StepRunsTheInstructionAtPc :
    HostQuiet (small 3 none [1, 2, 5]) ∧ (small 3 none [1, 2, 5]).run = .run ∧
    (Instr.set (.lit 2) (.lit 5)).wellFormed (small 3 none [1, 2, 5]).params.memWords = true ∧
    StandsAtPc (.set (.lit 2) (.lit 5)) (small 3 none [1, 2, 5]) := by
  unfold HostQuiet StandsAtPc
  decide

theorem witness_SetCopiesTheValue :
    Memory.wf (small 3 none [1, 2, 5]).mem = true ∧
    (Instr.set (.lit 2) (.lit 5)).wellFormed (small 3 none [1, 2, 5]).params.memWords =
      true := by decide

/-- Room just below the capacity, and none at it. -/
theorem witness_PushPutsTheValueOnTop :
    ((small 8 (some 1) [2, 7]).params.stackCapacity ≠ some (small 8 (some 1) [2, 7]).sp) ∧
    (((small 8 (some 1) [2, 7]).setStack [3]).params.stackCapacity =
      some ((small 8 (some 1) [2, 7]).setStack [3]).sp) := by decide

theorem witness_PopTakesTheTop :
    (((loaded [3, 32767]).setStack [9]).stack = 9 :: [] ∧
      Memory.wf ((loaded [3, 32767]).setStack [9]).mem = true ∧
      (Instr.pop (.lit 32767)).wellFormed
        ((loaded [3, 32767]).setStack [9]).params.memWords = true) ∧
    (loaded [3, 32767]).stack = [] := by decide

/-- An address that is the last of memory, and the first outside. -/
theorem witness_RmemLoadsAWord :
    ((valueOf (small 8 none [15, 7, 7]) (.lit 7)).toNat <
        (small 8 none [15, 7, 7]).params.memWords ∧
      Memory.wf (small 8 none [15, 7, 7]).mem = true ∧
      (Instr.rmem (.lit 7) (.lit 7)).wellFormed (small 8 none [15, 7, 7]).params.memWords =
        true) ∧
    (small 8 none [15, 7, 8]).params.memWords ≤
      (valueOf (small 8 none [15, 7, 8]) (.lit 8)).toNat := by decide

theorem witness_WmemStoresAWord :
    ((valueOf (small 8 none [16, 7, 1]) (.lit 7)).toNat <
        (small 8 none [16, 7, 1]).params.memWords ∧
      Memory.wf (small 8 none [16, 7, 1]).mem = true) ∧
    (small 8 none [16, 8, 1]).params.memWords ≤
      (valueOf (small 8 none [16, 8, 1]) (.lit 8)).toNat := by decide

theorem witness_EqWritesOneOrZero :
    Memory.wf (small 8 none [4, 7, 1, 1]).mem = true ∧
    (Instr.eq (.lit 7) (.lit 1) (.lit 1)).wellFormed
      (small 8 none [4, 7, 1, 1]).params.memWords = true := by decide

theorem witness_GtComparesUnsigned :
    Memory.wf (small 8 none [5, 7, 2, 1]).mem = true ∧
    (Instr.gt (.lit 7) (.lit 2) (.lit 1)).wellFormed
      (small 8 none [5, 7, 2, 1]).params.memWords = true := by decide

theorem witness_AddWritesTheReducedSum :
    Memory.wf (small 8 none [9, 7, 32767, 1]).mem = true ∧
    (Instr.add (.lit 7) (.lit 32767) (.lit 1)).wellFormed
      (small 8 none [9, 7, 32767, 1]).params.memWords = true := by decide

theorem witness_MultWritesTheReducedProduct :
    Memory.wf (small 8 none [10, 7, 16384, 2]).mem = true ∧
    (Instr.mult (.lit 7) (.lit 16384) (.lit 2)).wellFormed
      (small 8 none [10, 7, 16384, 2]).params.memWords = true := by decide

/-- A divisor of 1, the least above 0, and a divisor of 0. -/
theorem witness_ModWritesTheRemainder :
    (valueOf (small 8 none [11, 7, 5, 1]) (.lit 1) ≠ 0 ∧
      Memory.wf (small 8 none [11, 7, 5, 1]).mem = true ∧
      (Instr.mod (.lit 7) (.lit 5) (.lit 1)).wellFormed
        (small 8 none [11, 7, 5, 1]).params.memWords = true) ∧
    valueOf (small 8 none [11, 7, 5, 0]) (.lit 0) = 0 := by decide

theorem witness_AndWritesTheConjunction :
    Memory.wf (small 8 none [12, 7, 3, 5]).mem = true ∧
    (Instr.and (.lit 7) (.lit 3) (.lit 5)).wellFormed
      (small 8 none [12, 7, 3, 5]).params.memWords = true := by decide

theorem witness_OrWritesTheDisjunction :
    Memory.wf (small 8 none [13, 7, 3, 5]).mem = true ∧
    (Instr.or (.lit 7) (.lit 3) (.lit 5)).wellFormed
      (small 8 none [13, 7, 3, 5]).params.memWords = true := by decide

theorem witness_NotWritesTheComplement :
    Memory.wf (small 8 none [14, 7, 3]).mem = true ∧
    (Instr.not (.lit 7) (.lit 3)).wellFormed
      (small 8 none [14, 7, 3]).params.memWords = true := by decide

/-- Operand values at the end of the range, 32767, for every operation of the statement. -/
theorem witness_AluKeepsValuesNarrow :
    Memory.wf (loaded []).mem = true ∧ (loaded []).run = .run ∧
    ((loaded []).advance 4).run = .run ∧
    (valueOf (loaded []) (.lit 32767)).toNat < 32768 ∧
    exec (.add (.reg 0) (.lit 32767) (.lit 32767)) (loaded []) =
      .next (((loaded []).advance 4).setReg 0 32766) ∧
    exec (.not (.reg 0) (.lit 32767)) (loaded []) =
      .next (((loaded []).advance 3).setReg 0 0) :=
  ⟨by decide, by decide, by decide, by decide, rfl, rfl⟩

theorem witness_NotTwiceGivesTheValueBack :
    (valueOf (loaded []) (.lit 32767)).toNat < 32768 ∧
    exec (.not (.reg 0) (.lit 32767)) (loaded []) =
      .next (((loaded []).advance 3).setReg 0 0) ∧
    exec (.not (.reg 1) (.reg 0)) (((loaded []).advance 3).setReg 0 0) =
      .next (((((loaded []).advance 3).setReg 0 0).advance 3).setReg 1 32767) :=
  ⟨by decide, rfl, rfl⟩

theorem witness_CallPushesTheReturnAddress :
    ((small 8 (some 1) [17, 7]).params.stackCapacity ≠ some (small 8 (some 1) [17, 7]).sp) ∧
    (((small 8 (some 1) [17, 7]).setStack [3]).params.stackCapacity =
      some ((small 8 (some 1) [17, 7]).setStack [3]).sp) := by decide

theorem witness_RetPopsPcOrHalts :
    ((loaded [18]).setStack [65535]).stack = 65535 :: [] ∧ (loaded [18]).stack = [] := by decide

/-- L1-5. -/
theorem witness_CallThenRetReturns :
    (loaded [17, 4, 0, 0, 18]).run = .run ∧ (loaded [17, 4, 0, 0, 18]).schedule = [] ∧
    (loaded [17, 4, 0, 0, 18]).params.stackCapacity ≠ some (loaded [17, 4, 0, 0, 18]).sp ∧
    StandsAtPc (.call (.lit 4)) (loaded [17, 4, 0, 0, 18]) ∧
    (valueOf (loaded [17, 4, 0, 0, 18]) (.lit 4)).toNat <
      (loaded [17, 4, 0, 0, 18]).params.memWords ∧
    (loaded [17, 4, 0, 0, 18]).word
      (valueOf (loaded [17, 4, 0, 0, 18]) (.lit 4)).toNat = 18 := by
  unfold StandsAtPc
  decide

/-- A block waiting at `in r3`, with a word offered; and one about to run it. -/
def waiting : State := ((loaded [20, 32771]).setRun .waitIn).setOffered [104]

theorem witness_InWaitsThenTakesTheWord :
    (loaded [20, 32771]).run = .run ∧
    (waiting.run = .waitIn ∧ waiting.offered = 104 :: [] ∧ Memory.wf waiting.mem = true ∧
      (Instr.inp (.reg 3)).wellFormed waiting.params.memWords = true) := by decide

theorem witness_WaitingBlockTakesOneWordOrWaits :
    waiting.run = .waitIn ∧ HostQuiet waiting ∧ StandsAtPc (.inp (.reg 3)) waiting ∧
    (Instr.inp (.reg 3)).wellFormed waiting.params.memWords = true ∧
    Memory.wf waiting.mem = true ∧ waiting.offered = 104 :: [] ∧
    (waiting.setOffered []).offered = [] ∧
    StandsAtPc (.inp (.reg 3)) (waiting.setOffered []) := by
  unfold HostQuiet StandsAtPc
  decide

/-- A step that is answered, for the statements about every step (OnlyOutSendsWords,
SentWordsAreNeverRead, ParametersNeverChange, StateMachineTransitions): `out 72`. -/
theorem witness_OnlyOutSendsWords :
    step (loaded [19, 72]) = .next (((loaded [19, 72]).advance 2).send 72) := rfl

/-- Each case of the statement. -/
theorem witness_InputIsTakenOnlyWhileWaiting :
    step waiting = .next ((inputTaken waiting 104 []).setReg 3 104) ∧
    step ((loaded [21]).setSchedule [.offer 7]) = .next ((loaded [21]).setOffered [7]) ∧
    step ((loaded [21]).setSchedule [.reset]) = .next (hostReset (loaded [21])) ∧
    step ((loaded [21]).setSchedule [.loadImage []]) = .next (loaded [21]) ∧
    step (loaded [21]) = .next ((loaded [21]).advance 1) :=
  ⟨rfl, rfl, rfl, rfl, rfl⟩

theorem witness_ResetFromAnyState :
    (waiting.setSchedule [.reset, .quiet]).schedule = .reset :: [.quiet] := by decide

/-- A block in IDLE with MEM_WORDS = 1, and an image about to come. -/
def idleWith (bytes : List Byte) : State :=
  { State.reset with params := ⟨1, none⟩, schedule := [.loadImage bytes, .quiet] }

/-- On a block in IDLE whose memory is one word: the image of exactly MEM_WORDS words, which is
accepted; then those just outside, none, an odd byte, one word too many; and a block that is not
in IDLE. -/
theorem witness_LoadImageStartsTheBlock :
    ((idleWith [1, 2]).schedule = .loadImage [1, 2] :: [.quiet] ∧
      (idleWith [1, 2]).run = .idle ∧
      ([1, 2] : List Byte).length ≠ 0 ∧ ([1, 2] : List Byte).length % 2 = 0 ∧
      ([1, 2] : List Byte).length / 2 ≤ (idleWith [1, 2]).params.memWords) ∧
    ((idleWith []).schedule = .loadImage [] :: [.quiet] ∧ (idleWith []).run = .idle ∧
      ([] : List Byte).length = 0) ∧
    ((idleWith [1]).schedule = .loadImage [1] :: [.quiet] ∧ (idleWith [1]).run = .idle ∧
      ([1] : List Byte).length % 2 = 1) ∧
    ((idleWith [1, 2, 3, 4]).schedule = .loadImage [1, 2, 3, 4] :: [.quiet] ∧
      (idleWith [1, 2, 3, 4]).run = .idle ∧
      (idleWith [1, 2, 3, 4]).params.memWords < ([1, 2, 3, 4] : List Byte).length / 2) ∧
    (((idleWith [1, 2]).setRun .run).schedule = .loadImage [1, 2] :: [.quiet] ∧
      ((idleWith [1, 2]).setRun .run).run ≠ .idle) := by decide

theorem witness_TerminalStatesStay :
    ((loaded []).setRun .halted).run.terminal = true ∧
    ((loaded []).setRun .faulted).run.terminal = true ∧
    ((loaded []).setRun .loadFailed).run.terminal = true ∧
    nextEvent ((loaded []).setRun .halted) ≠ .reset := by decide

/-- AL-25's state: `mod r0, 5, 0` faults. -/
theorem witness_FaultsArePrecise :
    (loaded [11, 32768, 5, 0]).run = .run ∧ HostQuiet (loaded [11, 32768, 5, 0]) ∧
    step (loaded [11, 32768, 5, 0]) =
      .next (takeFault (loaded [11, 32768, 5, 0]) ⟨.divideByZero, 0⟩) ∧
    (takeFault (loaded [11, 32768, 5, 0]) ⟨.divideByZero, 0⟩).run = .faulted :=
  ⟨rfl, rfl, rfl, rfl⟩

theorem witness_OnlyNamedInstructionsFault :
    (Instr.pop (.reg 0)).wellFormed (loaded [3, 32768]).params.memWords = true ∧
    (loaded [3, 32768]).run = .run ∧
    exec (.pop (.reg 0)) (loaded [3, 32768]) =
      .next (takeFault (loaded [3, 32768]) ⟨.stackUnderflow, 0⟩) ∧
    (takeFault (loaded [3, 32768]) ⟨.stackUnderflow, 0⟩).run = .faulted :=
  ⟨rfl, rfl, rfl, rfl⟩

theorem witness_PcMovesPastTheInstruction :
    isTransfer (.out (.lit 72)) = false ∧ (loaded [19, 72]).run = .run ∧
    exec (.out (.lit 72)) (loaded [19, 72]) =
      .next (((loaded [19, 72]).advance 2).send 72) ∧
    (((loaded [19, 72]).advance 2).send 72).run = .run ∧
    exec .halt (loaded [0]) = .next (((loaded [0]).advance 1).enterHalted 0) :=
  ⟨rfl, rfl, rfl, rfl, rfl⟩

theorem witness_OnlyNamedLocationsChange :
    exec (.wmem (.lit 9) (.lit 1)) (loaded [16, 9, 1]) =
      .next (((loaded [16, 9, 1]).advance 3).putWord 9 1) ∧
    destOf (.wmem (.lit 9) (.lit 1)) ≠ some (.reg 0) ∧
    storeAddress (.wmem (.lit 9) (.lit 1)) (loaded [16, 9, 1]) ≠ some 8 ∧
    usesStack (.wmem (.lit 9) (.lit 1)) = false :=
  ⟨rfl, by decide, by decide, rfl⟩

/-- P4's first instruction moved next to its target, which is the last word of memory. -/
theorem witness_FetchSeesThePrecedingStore :
    (small 4 none [16, 3, 21, 0]).params.wf = true ∧
    Memory.wf (small 4 none [16, 3, 21, 0]).mem = true ∧
    valueOf (small 4 none [16, 3, 21, 0]) (.lit 3) = (small 4 none [16, 3, 21, 0]).pc + 3 ∧
    (small 4 none [16, 3, 21, 0]).pc.toNat + 3 <
      (small 4 none [16, 3, 21, 0]).params.memWords := by decide

/-- A step of each kind the statement tells apart. -/
theorem witness_StateMachineTransitions :
    step (State.reset.setSchedule [.loadImage []]) = .next (loadRefused State.reset) ∧
    step (loaded [0]) = .next (((loaded [0]).advance 1).enterHalted 0) ∧
    step (loaded [18]) = .next (((loaded [18]).advance 1).enterHalted 1) ∧
    step (loaded [20, 32771]) = .next ((loaded [20, 32771]).setRun .waitIn) ∧
    step State.reset = .next State.reset :=
  ⟨rfl, rfl, rfl, rfl, rfl⟩

theorem witness_OnlyHaltAndEmptyRetHalt :
    step (loaded [18]) = .next (((loaded [18]).advance 1).enterHalted 1) ∧
    (loaded [18]).run ≠ .halted ∧ (((loaded [18]).advance 1).enterHalted 1).run = .halted :=
  ⟨rfl, by decide, rfl⟩

theorem witness_SentWordsAreNeverRead :
    step (loaded [19, 72]) = .next (((loaded [19, 72]).advance 2).send 72) := rfl

theorem witness_OffersAreUnseenInRun :
    (loaded [20, 32771]).run = .run ∧ HostQuiet (loaded [20, 32771]) ∧
    step (loaded [20, 32771]) = .next ((loaded [20, 32771]).setRun .waitIn) :=
  ⟨rfl, rfl, rfl⟩

/-- `in r0`, then halt, as an image. -/
def inHalt : List Byte := [20, 0, 0, 128, 0, 0]

/-- Two hosts that load it: one offers the word 7 before the load, the other when the block
already waits. -/
def earlyHost : State := { State.reset with schedule := [.loadImage inHalt], offered := [7] }
def lateHost : State :=
  { State.reset with schedule := [.loadImage inHalt, .quiet, .quiet, .offer 7] }

theorem witness_InputFixesTheObservation :
    lateHost.params = earlyHost.params ∧
    StartsRun inHalt earlyHost (after earlyHost) ∧ StartsRun inHalt lateHost (after lateHost) ∧
    EndsWith (after earlyHost) [7] (observe (after (after (after (after earlyHost))))) ∧
    EndsWith (after lateHost) [7]
      (observe (after (after (after (after (after (after lateHost))))))) := by
  refine ⟨rfl, ⟨rfl, rfl, rfl, rfl⟩, ⟨rfl, rfl, rfl, rfl⟩, ⟨3, _, ?_, by decide, by decide, rfl⟩,
    ⟨5, _, ?_, by decide, by decide, rfl⟩⟩
  · exact ⟨by decide, _, rfl, by decide, _, rfl, by decide, _, rfl, rfl⟩
  · exact ⟨by decide, _, rfl, by decide, _, rfl, by decide, _, rfl, by decide, _, rfl,
      by decide, _, rfl, rfl⟩

/-- A block that waits with no word on offer. -/
def waitingDry : State := waiting.setOffered []

theorem witness_WaitsForeverWhenNoWordComes : waitingDry.Inv where
  params := by decide
  memory := by
    unfold MemoryOk
    decide
  stack := by
    intro c h
    cases h
  status := by
    unfold StatusOk
    decide
  waits := fun _ => ⟨.reg 3, by decide⟩
  unloaded := fun h => by rcases h with h | h <;> cases h

/-- C-15: `jmp 0` at 0, and the host about to offer a word. -/
theorem witness_SelfJumpHangs :
    ((loaded [6, 0]).setSchedule [.offer 5]).run = .run ∧
    StandsAtPc (.jmp (.lit 0)) ((loaded [6, 0]).setSchedule [.offer 5]) ∧
    valueOf ((loaded [6, 0]).setSchedule [.offer 5]) (.lit 0) =
      ((loaded [6, 0]).setSchedule [.offer 5]).pc ∧
    ∀ e ∈ ((loaded [6, 0]).setSchedule [.offer 5]).schedule, e ≠ .reset := by
  unfold StandsAtPc
  decide

/-- C-15 hangs, and IO-5 is stuck: each comes back to its own state. -/
theorem witness_StuckRunsAndHangsNeverEnd :
    Hangs (loaded [6, 0]) ∧ StuckOnInput waitingDry := by
  refine ⟨⟨0, _, rfl, staysIn_of_inv (· = loaded [6, 0]) ?_ ?_ rfl⟩,
    ⟨0, _, rfl, staysIn_of_inv (· = waitingDry) ?_ ?_ rfl⟩⟩
  · rintro _ rfl
    rfl
  · rintro _ rfl
    exact ⟨by decide, _, rfl, rfl⟩
  · rintro _ rfl
    rfl
  · rintro _ rfl
    exact ⟨by decide, _, rfl, rfl⟩

theorem witness_ParametersNeverChange :
    step (small 8 (some 2) [2, 7]) =
      .next (((small 8 (some 2) [2, 7]).advance 2).setStack [7]) := rfl

theorem witness_StepKeepsMemoryCanonical :
    MemoryOk (small 8 none [1, 7, 5]) ∧
    step (small 8 none [1, 7, 5]) =
      .next (((small 8 none [1, 7, 5]).advance 3).putWord 7 5) := by
  refine ⟨?_, rfl⟩
  unfold MemoryOk
  decide

/-- A state in RUN with a program, a stack at its capacity and nothing reset-like about it. -/
def midRun : State := ((small 8 (some 2) [2, 7, 18]).setStack [5, 4]).setReg 6 1000

theorem midRun_inv : midRun.Inv where
  params := by decide
  memory := by
    unfold MemoryOk
    decide
  stack := by
    intro c h
    cases h
    decide
  status := by
    unfold StatusOk
    decide
  waits := fun h => by cases h
  unloaded := fun h => by rcases h with h | h <;> cases h

theorem witness_StepKeepsTheInvariant :
    midRun.Inv ∧ step midRun = .next (takeFault midRun ⟨.stackOverflow, 0⟩) :=
  ⟨midRun_inv, rfl⟩

theorem witness_InvariantStatesAlwaysStep : midRun.Inv := midRun_inv

end Sys2Proof.Tests
end

section
/-!
PROOFS. The invariant (O53), the parameters (O51) and the numbers of the status read (O56). What a
completed instruction keeps is said once, in `CompletionFrame`, and to which run state it leads
in `Effect.run_cases`; then each operation that a step can call keeps the invariant, and
`step_cases` puts them together.
-/

namespace Sys2Proof.Machine

/-! ### What every completed instruction keeps -/

/-- What any instruction that completes keeps of `s`: the parameters and the host's side, the
fault record, all of memory but one word inside the address space, and the stack's depth up to
one more entry where there is room. -/
structure CompletionFrame (s t : State) : Prop where
  outside : SameOutside s t
  faultCode : t.faultCode = s.faultCode
  faultPc : t.faultPc = s.faultPc
  faultInfo : t.faultInfo = s.faultInfo
  memory : t.mem = s.mem ∨ ∃ x w, x < s.params.memWords ∧ t.mem = Memory.write s.mem x w
  stack : t.sp ≤ s.sp ∨ s.params.stackCapacity ≠ some s.sp ∧ t.sp = s.sp + 1

/-- Moving pc alone is within the frame. -/
theorem CompletionFrame.setPc (s : State) (p : Word) : CompletionFrame s (s.setPc p) :=
  ⟨⟨rfl, rfl, rfl⟩, rfl, rfl, rfl, .inl rfl, .inl le_rfl⟩

/-- So is moving pc past the instruction. -/
theorem CompletionFrame.advance (s : State) (n : Nat) : CompletionFrame s (s.advance n) :=
  .setPc s _

/-- A destination write stays within the frame, if what came before it did not write memory. -/
theorem CompletionFrame.writeDest {s u t : State} {a : Operand} {v : Word}
    (hu : CompletionFrame s u) (hm : u.mem = s.mem) (h : writeDest u a v = .ok t) :
    CompletionFrame s t := by
  obtain ⟨-, hstack, -, -, hcode, hpc, hinfo, -, ⟨hparams, hsent, hsched⟩, hmem⟩ :=
    writeDest_keeps h
  rw [hm, hu.outside.params] at hmem
  exact {
    outside := ⟨hparams.trans hu.outside.params, hsent.trans hu.outside.sentBefore,
      hsched.trans hu.outside.schedule⟩
    faultCode := hcode.trans hu.faultCode
    faultPc := hpc.trans hu.faultPc
    faultInfo := hinfo.trans hu.faultInfo
    memory := hmem
    stack := by
      rw [State.sp, hstack]
      exact hu.stack }

/-- Every instruction completes within the frame. -/
theorem Effect.frame {i : Instr} {s t : State} (h : Effect i s t) : CompletionFrame s t := by
  cases i with
  | halt | out _ =>
    obtain rfl := h
    exact ⟨⟨rfl, rfl, rfl⟩, rfl, rfl, rfl, .inl rfl, .inl le_rfl⟩
  | jmp _ | noop =>
    obtain rfl := h
    exact .setPc s _
  | jt _ _ | jf _ _ =>
    rw [Effect, branch_eq] at h
    exact h ▸ .setPc s _
  | set _ _ | eq _ _ _ | gt _ _ _ | add _ _ _ | mult _ _ _ | and _ _ _ | or _ _ _ | not _ _ =>
    exact (CompletionFrame.advance s _).writeDest rfl h
  | mod _ _ _ =>
    obtain ⟨_, -, hw⟩ := h
    exact (CompletionFrame.advance s _).writeDest rfl hw
  | rmem _ _ => exact (CompletionFrame.advance s _).writeDest rfl h.2
  | wmem _ _ =>
    obtain ⟨hx, rfl⟩ := h
    exact ⟨⟨rfl, rfl, rfl⟩, rfl, rfl, rfl, .inr ⟨_, _, hx, rfl⟩, .inl le_rfl⟩
  | push _ | call _ =>
    obtain ⟨hroom, rfl⟩ := h
    exact ⟨⟨rfl, rfl, rfl⟩, rfl, rfl, rfl, .inl rfl, .inr ⟨hroom, rfl⟩⟩
  | pop _ =>
    obtain ⟨v, rest, hs, hw⟩ := h
    have hpop : CompletionFrame s ((s.advance 2).setStack rest) :=
      ⟨⟨rfl, rfl, rfl⟩, rfl, rfl, rfl, .inl rfl, .inl (by simp [State.sp, hs])⟩
    exact hpop.writeDest rfl hw
  | ret =>
    rcases h with ⟨-, rfl⟩ | ⟨v, rest, hs, rfl⟩
    · exact ⟨⟨rfl, rfl, rfl⟩, rfl, rfl, rfl, .inl rfl, .inl le_rfl⟩
    · exact ⟨⟨rfl, rfl, rfl⟩, rfl, rfl, rfl, .inl rfl, .inl (by simp [State.sp, hs])⟩
  | inp _ =>
    rcases h with ⟨-, rfl⟩ | ⟨-, -, rfl⟩ | ⟨v, rest, -, -, hw⟩
    · exact ⟨⟨rfl, rfl, rfl⟩, rfl, rfl, rfl, .inl rfl, .inl le_rfl⟩
    · exact ⟨⟨rfl, rfl, rfl⟩, rfl, rfl, rfl, .inl rfl, .inl le_rfl⟩
    · have htaken : CompletionFrame s (inputTaken s v rest) :=
        ⟨⟨rfl, rfl, rfl⟩, rfl, rfl, rfl, .inl rfl, .inl le_rfl⟩
      exact htaken.writeDest rfl hw

/-- A completed instruction leaves memory canonical and inside the address space (20_memory.md
R50). -/
theorem CompletionFrame.memoryOk {s t : State} (h : CompletionFrame s t) (hm : MemoryOk s) :
    MemoryOk t := by
  obtain ⟨hwf, hlt⟩ := hm
  rw [MemoryOk, h.outside.params]
  rcases h.memory with hmem | ⟨x, w, hx, hmem⟩ <;> rw [hmem]
  · exact ⟨hwf, hlt⟩
  · refine ⟨Memory.wf_write x w hwf, fun c hc => ?_⟩
    rcases Memory.mem_write hc with hcx | hc
    · exact hcx ▸ hx
    · exact hlt c hc

/-- A completed instruction leaves the stack within its capacity (10_state.md R33, R34). -/
theorem CompletionFrame.stackFits {s t : State} (h : CompletionFrame s t) (hs : StackFits s) :
    StackFits t := by
  intro c hc
  rw [h.outside.params] at hc
  have hle := hs c hc
  rcases h.stack with hsp | ⟨hroom, hsp⟩
  · omega
  · have hne : s.sp ≠ c := fun e => hroom (e ▸ hc)
    omega

/-! ### The run state after a completed instruction -/

/-- The block executes `i` in `s`: any instruction in RUN, and in WAIT_IN the waiting `in` alone
(30_encoding.md R97, 43_io.md R221). -/
def ExecutesIn (i : Instr) (s : State) : Prop :=
  s.run = .run ∨ s.run = .waitIn ∧ ∃ a, i = .inp a

/-- A block that executes is in none of the terminal states (R101). -/
theorem ExecutesIn.run_ne {i : Instr} {s : State} (h : ExecutesIn i s) :
    s.run ≠ .halted ∧ s.run ≠ .faulted ∧ s.run ≠ .loadFailed := by
  rcases h with h | ⟨h, -⟩ <;> simp [h]

/-- After a destination write in a state in RUN the block is in RUN, halt_reason as before. -/
theorem writeDest_run {s u t : State} {a : Operand} {v : Word} (h : writeDest u a v = .ok t)
    (hr : u.run = .run) (hh : u.haltReason = s.haltReason) :
    t.run = .run ∧ t.haltReason = s.haltReason := by
  obtain ⟨-, -, hrun, hreason, -⟩ := writeDest_keeps h
  exact ⟨hrun.trans hr, hreason.trans hh⟩

/-- After a completed instruction the block has halted, waits at the `in` it executed, or is in
RUN with halt_reason as before (R97). -/
theorem Effect.run_cases {i : Instr} {s t : State} (h : Effect i s t) (hx : ExecutesIn i s) :
    t.run = .halted ∨ (t = s.setRun .waitIn ∧ ∃ a, i = .inp a) ∨
      (t.run = .run ∧ t.haltReason = s.haltReason) := by
  by_cases hi : ∃ a, i = .inp a
  · obtain ⟨a, rfl⟩ := hi
    rcases h with ⟨-, rfl⟩ | ⟨hw, -, rfl⟩ | ⟨v, rest, -, -, hw⟩
    · exact .inr (.inl ⟨rfl, a, rfl⟩)
    · exact .inr (.inl ⟨by rw [← hw]; rfl, a, rfl⟩)
    · exact .inr (.inr (writeDest_run hw rfl rfl))
  have hr : s.run = .run := hx.resolve_right fun hw => hi hw.2
  cases i with
  | inp a => exact absurd ⟨a, rfl⟩ hi
  | halt =>
    obtain rfl := h
    exact .inl rfl
  | ret =>
    rcases h with ⟨-, rfl⟩ | ⟨v, rest, -, rfl⟩
    · exact .inl rfl
    · exact .inr (.inr ⟨hr, rfl⟩)
  | jmp _ | out _ | noop =>
    obtain rfl := h
    exact .inr (.inr ⟨hr, rfl⟩)
  | jt _ _ | jf _ _ =>
    rw [Effect, branch_eq] at h
    obtain rfl := h
    exact .inr (.inr ⟨hr, rfl⟩)
  | push _ | wmem _ _ | call _ =>
    obtain ⟨-, rfl⟩ := h
    exact .inr (.inr ⟨hr, rfl⟩)
  | set _ _ | eq _ _ _ | gt _ _ _ | add _ _ _ | mult _ _ _ | and _ _ _ | or _ _ _ | not _ _ =>
    exact .inr (.inr (writeDest_run h hr rfl))
  | rmem _ _ => exact .inr (.inr (writeDest_run h.2 hr rfl))
  | mod _ _ _ =>
    obtain ⟨_, -, hw⟩ := h
    exact .inr (.inr (writeDest_run hw hr rfl))
  | pop _ =>
    obtain ⟨_, _, -, hw⟩ := h
    exact .inr (.inr (writeDest_run hw hr rfl))

/-- A completed instruction leads neither to IDLE nor to FAULTED or LOAD_FAILED (R97). -/
theorem Effect.run_ne {i : Instr} {s t : State} (h : Effect i s t) (hx : ExecutesIn i s) :
    t.run ≠ .idle ∧ t.run ≠ .faulted ∧ t.run ≠ .loadFailed := by
  rcases h.run_cases hx with hr | ⟨rfl, -⟩ | ⟨hr, -⟩
  · simp [hr]
  · simp
  · simp [hr]

/-- Only a normal stop writes halt_reason (10_state.md R37). -/
theorem Effect.haltReason {i : Instr} {s t : State} (h : Effect i s t) (hx : ExecutesIn i s)
    (ht : t.run ≠ .halted) : t.haltReason = s.haltReason := by
  rcases h.run_cases hx with hr | ⟨rfl, -⟩ | ⟨-, hh⟩
  · exact absurd hr ht
  · rfl
  · exact hh

/-- Only an `in` begins to wait, and it does so at its own address (43_io.md R221). -/
theorem Effect.waitsAtIn {i : Instr} {s t : State} (h : Effect i s t) (hx : ExecutesIn i s)
    (hd : decodeAt s = .ok i) : WaitsAtIn t := by
  intro hw
  rcases h.run_cases hx with hr | ⟨rfl, a, rfl⟩ | ⟨hr, -⟩
  · simp [hr] at hw
  · exact ⟨a, (decodeAt_congr rfl rfl fun _ => rfl).trans hd⟩
  · simp [hr] at hw

/-! ### LoadImage -/

/-- Everything a LoadImage can do (20_memory.md R62, R63): it succeeds or is refused in IDLE, and
is ignored elsewhere. -/
theorem loadImage_cases (s : State) (bytes : List Byte) :
    (s.run = .idle ∧ imageOk s.params bytes = true ∧ loadImage s bytes = loadSucceeds s bytes) ∨
    (s.run = .idle ∧ imageOk s.params bytes ≠ true ∧ loadImage s bytes = loadRefused s) ∨
    (s.run ≠ .idle ∧ loadImage s bytes = s) := by
  by_cases hr : s.run = .idle
  · by_cases hok : imageOk s.params bytes = true
    · exact .inl ⟨hr, hok, by rw [loadImage, if_pos hr, if_pos hok]⟩
    · exact .inr (.inl ⟨hr, hok, by rw [loadImage, if_pos hr, if_neg hok]⟩)
  · exact .inr (.inr ⟨hr, by rw [loadImage, if_neg hr]⟩)

/-- A LoadImage keeps the parameters (00_scope.md R5). -/
@[simp] theorem loadImage_params (s : State) (bytes : List Byte) :
    (loadImage s bytes).params = s.params := by
  rcases loadImage_cases s bytes with ⟨-, -, h⟩ | ⟨-, -, h⟩ | ⟨-, h⟩ <;> rw [h]
  · exact loadSucceeds_params s bytes
  · exact loadRefused_params s

/-- A loaded memory is canonical, and inside the address space if the image is accepted (R63). -/
theorem loadSucceeds_memoryOk {s : State} {bytes : List Byte}
    (h : imageOk s.params bytes = true) : MemoryOk (loadSucceeds s bytes) := by
  obtain ⟨-, -, hfits⟩ := (imageOk_iff s.params bytes).mp h
  refine ⟨Memory.wf_ofWords _, fun c hc => ?_⟩
  have hlt := Memory.mem_ofWords hc
  rw [imageWords_length] at hlt
  rw [loadSucceeds_params]
  omega

/-! ### The parameters -/

/-- An instruction keeps the parameters (00_scope.md R5). -/
theorem exec_params {i : Instr} {s t : State} (h : exec i s = .next t) :
    t.params = s.params := by
  rcases exec_cases h with heff | ⟨e, -, rfl⟩
  · exact heff.frame.outside.params
  · exact takeFault_params s e

/-- Settles O51, by the cases of a step. -/
theorem parametersNeverChange : Obligations.ParametersNeverChange := by
  intro s t h
  rcases step_cases h with ⟨-, rfl⟩ | ⟨bytes, -, rfl⟩ | ⟨v, -, rfl⟩ | ⟨-, -, -, rfl⟩ |
    ⟨-, -, e, -, rfl⟩ | ⟨-, -, i, -, h⟩ | ⟨-, -, a, -, h⟩
  · exact hostReset_params s.ticked
  · exact loadImage_params s.ticked bytes
  · exact State.setOffered_params s.ticked _
  · exact State.ticked_params s
  · exact takeFault_params s.ticked _
  · exact (exec_params h).trans (State.ticked_params s)
  · exact (exec_params h).trans (State.ticked_params s)

/-! ### What keeps the invariant -/

/-- The status of a block that is neither FAULTED nor LOAD_FAILED is right when the fault record
is clear, and halt_reason too unless it has halted (10_state.md R37, R38). -/
theorem StatusOk.of_clear_record {s : State} (hf : s.run ≠ .faulted) (hl : s.run ≠ .loadFailed)
    (hh : s.run ≠ .halted → s.haltReason = 0)
    (hrec : s.faultCode = 0 ∧ s.faultPc = 0 ∧ s.faultInfo = 0) : StatusOk s :=
  ⟨hh, fun _ _ => hrec, fun h => absurd h hf, fun h => absurd h hl⟩

/-- Taking the event off the schedule keeps the invariant. -/
theorem State.Inv.ticked {s : State} (h : s.Inv) : s.ticked.Inv where
  params := h.params
  memory := h.memory
  stack := h.stack
  status := h.status
  waits := by
    rw [WaitsAtIn, decodeAt_ticked]
    exact h.waits
  unloaded := h.unloaded

/-- An offer of an input word keeps the invariant (43_io.md R223). -/
theorem State.Inv.offerInput {s : State} (h : s.Inv) (v : Word) : (offerInput s v).Inv where
  params := h.params
  memory := h.memory
  stack := h.stack
  status := h.status
  waits := by
    rw [WaitsAtIn, decodeAt_congr (s := s) (t := Machine.offerInput s v) rfl rfl fun _ => rfl]
    exact h.waits
  unloaded := h.unloaded

/-- A Reset gives a state that meets the invariant (70_reset_and_hazards.md R270). -/
theorem State.Inv.hostReset {s : State} (h : s.Inv) : (hostReset s).Inv where
  params := h.params
  memory := ⟨rfl, fun _ hc => absurd hc List.not_mem_nil⟩
  stack := fun c _ => Nat.zero_le c
  status := .of_clear_record (by simp) (by simp) (fun _ => rfl) ⟨rfl, rfl, rfl⟩
  waits := fun hw => absurd hw (by simp)
  unloaded := fun _ => ⟨State.reg_of_zero rfl, rfl, rfl, rfl, rfl⟩

/-- So does a LoadImage that succeeds (20_memory.md R62, R64). -/
theorem State.Inv.loadSucceeds {s : State} {bytes : List Byte} (h : s.Inv)
    (hok : imageOk s.params bytes = true) : (loadSucceeds s bytes).Inv where
  params := h.params
  memory := loadSucceeds_memoryOk hok
  stack := fun c _ => Nat.zero_le c
  status := .of_clear_record (by simp) (by simp) (fun _ => rfl) ⟨rfl, rfl, rfl⟩
  waits := fun hw => absurd hw (by simp)
  unloaded := fun hu => absurd hu (by simp)

/-- A LoadImage that is refused keeps the invariant: the block is still as reset left it but for
the status (R63). -/
theorem State.Inv.loadRefused {s : State} (h : s.Inv) (hr : s.run = .idle) :
    (loadRefused s).Inv where
  params := h.params
  memory := h.memory
  stack := h.stack
  status := by
    obtain ⟨hreason, -⟩ := h.status
    refine ⟨fun _ => hreason (by simp [hr]), fun _ hl => absurd rfl hl, fun hf => ?_,
      fun _ => ⟨rfl, rfl, rfl⟩⟩
    simp at hf
  waits := fun hw => absurd hw (by simp)
  unloaded := fun _ => h.unloaded (.inl hr)

/-- Every LoadImage keeps the invariant. -/
theorem State.Inv.loadImage {s : State} (h : s.Inv) (bytes : List Byte) :
    (loadImage s bytes).Inv := by
  rcases loadImage_cases s bytes with ⟨-, hok, he⟩ | ⟨hr, -, he⟩ | ⟨-, he⟩ <;> rw [he]
  · exact h.loadSucceeds hok
  · exact h.loadRefused hr
  · exact h

/-- Taking a fault of an instruction keeps the invariant (60_exceptions.md R242), if halt_reason
was clear. -/
theorem State.Inv.takeFault {s : State} {e : Raised} (h : s.Inv) (hr : s.run ≠ .halted)
    (he : e.kind ≠ .loadError) : (takeFault s e).Inv where
  params := h.params
  memory := h.memory
  stack := h.stack
  status := by
    obtain ⟨hreason, -⟩ := h.status
    obtain ⟨hlow, hhigh⟩ := FaultKind.code_bounds he
    refine ⟨fun _ => hreason hr, fun hf => absurd rfl hf, fun _ => ⟨hlow, hhigh, rfl⟩,
      fun hl => ?_⟩
    simp at hl
  waits := fun hw => absurd hw (by simp)
  unloaded := fun hu => absurd hu (by simp)

/-- A completed instruction leaves the status right: a stop gives its halt_reason, and the fault
record stays clear (R37, R38). -/
theorem Effect.statusOk {i : Instr} {s t : State} (h : Effect i s t) (hx : ExecutesIn i s)
    (hs : StatusOk s) : StatusOk t := by
  obtain ⟨hreason, hrecord, -, -⟩ := hs
  obtain ⟨hne, hnf, hnl⟩ := hx.run_ne
  obtain ⟨-, htf, htl⟩ := h.run_ne hx
  refine .of_clear_record htf htl (fun hnh => ?_) ?_
  · exact (h.haltReason hx hnh).trans (hreason hne)
  · rw [h.frame.faultCode, h.frame.faultPc, h.frame.faultInfo]
    exact hrecord hnf hnl

/-- The instruction at pc, executed and completed, keeps the invariant. -/
theorem State.Inv.effect {i : Instr} {s t : State} (h : s.Inv) (hd : decodeAt s = .ok i)
    (hx : ExecutesIn i s) (heff : Effect i s t) : t.Inv where
  params := heff.frame.outside.params ▸ h.params
  memory := heff.frame.memoryOk h.memory
  stack := heff.frame.stackFits h.stack
  status := heff.statusOk hx h.status
  waits := heff.waitsAtIn hx hd
  unloaded := by
    obtain ⟨hni, -, hnl⟩ := heff.run_ne hx
    exact fun hu => absurd hu (not_or.mpr ⟨hni, hnl⟩)

/-- The instruction at pc keeps the invariant, whether it completes or faults. -/
theorem State.Inv.exec {i : Instr} {s t : State} (h : s.Inv) (hd : decodeAt s = .ok i)
    (hx : ExecutesIn i s) (he : exec i s = .next t) : t.Inv := by
  rcases exec_cases he with heff | ⟨e, hfault, rfl⟩
  · exact h.effect hd hx heff
  · obtain ⟨hne, -⟩ := hx.run_ne
    exact h.takeFault hne hfault.kind_ne

/-- Settles O53, by the cases of a step: each operation that a step calls keeps the invariant. -/
theorem stepKeepsTheInvariant : Obligations.StepKeepsTheInvariant := by
  intro s t hs h
  have hi := hs.ticked
  rcases step_cases h with ⟨-, rfl⟩ | ⟨bytes, -, rfl⟩ | ⟨v, -, rfl⟩ | ⟨-, -, -, rfl⟩ |
    ⟨-, hr, e, -, rfl⟩ | ⟨-, hr, i, hd, he⟩ | ⟨-, hr, a, hd, he⟩
  · exact hi.hostReset
  · exact hi.loadImage bytes
  · exact hi.offerInput v
  · exact hi
  · exact hi.takeFault (by simp [hr]) (decodeFault_kind_ne s.pc e)
  · exact hi.exec ((decodeAt_ticked s).trans hd) (.inl hr) he
  · exact hi.exec ((decodeAt_ticked s).trans hd) (.inr ⟨hr, a, rfl⟩) he

/-! ### The numbers of the status read -/

/-- Settles O56, by the run states and the fault kinds. -/
theorem statusAndFaultNumbers : Obligations.StatusAndFaultNumbers := by
  refine ⟨fun s => ⟨?_, rfl, rfl, rfl, rfl⟩, fun kind => ?_⟩
  · rw [readStatus]
    cases s.run <;> rfl
  · cases kind <;> rfl

end Sys2Proof.Machine
end

section
/-!
PROOFS. Where pc goes and what an instruction leaves alone: pc never wraps (O7), a completed
instruction that is no transfer leaves pc just past itself (O44), and an instruction changes only
the locations it names (O45). O7 rests on `decode_ok`, which says that decoded words are the
instruction's encoding; O44 and O45 follow from the cases of `Effect`.
-/

/-! ### Where a decoded instruction ends -/

namespace Sys2Proof

/-- A word is fixed by its number, as the opcode map of 30_encoding.md R88 takes it. -/
theorem word_eq_of_toNat {w : Word} {n : Nat} (h : w.toNat = n) : w = BitVec.ofNat 16 n :=
  (BitVec.toNat_eq_nat.mp h).2

/-- Everything a successful decode tells (30_encoding.md R82, R91, R95): the words begin with the
instruction's own encoding, and the instruction is well formed. -/
theorem decode_ok {memWords : Nat} {ws : List Word} {i : Instr} (h : decode memWords ws = .ok i) :
    (∃ rest, ws = encode i ++ rest) ∧ i.wellFormed memWords = true := by
  unfold decode at h
  split at h
  · cases h
  · rename_i op rest
    split at h
    case h_1 hop | h_19 hop | h_22 hop =>
      obtain rfl := Except.ok.inj h
      exact ⟨⟨rest, by rw [word_eq_of_toNat hop]; rfl⟩, rfl⟩
    case h_3 hop | h_7 hop | h_18 hop | h_20 hop =>
      obtain ⟨a, tail, rfl, rfl⟩ := formV_ok h
      exact ⟨⟨tail, by rw [word_eq_of_toNat hop]; rfl⟩, rfl⟩
    case h_4 hop | h_21 hop =>
      obtain ⟨a, tail, rfl, hd, rfl⟩ := formD_ok h
      exact ⟨⟨tail, by rw [word_eq_of_toNat hop]; rfl⟩, hd⟩
    case h_8 hop | h_9 hop | h_17 hop =>
      obtain ⟨a, b, tail, rfl, rfl⟩ := formVV_ok h
      exact ⟨⟨tail, by rw [word_eq_of_toNat hop]; rfl⟩, rfl⟩
    case h_2 hop | h_15 hop | h_16 hop =>
      obtain ⟨a, b, tail, rfl, hd, rfl⟩ := formDV_ok h
      exact ⟨⟨tail, by rw [word_eq_of_toNat hop]; rfl⟩, hd⟩
    case h_5 hop | h_6 hop | h_10 hop | h_11 hop | h_12 hop | h_13 hop | h_14 hop =>
      obtain ⟨a, b, c, tail, rfl, hd, rfl⟩ := formDVV_ok h
      exact ⟨⟨tail, by rw [word_eq_of_toNat hop]; rfl⟩, hd⟩
    case h_23 => cases h

/-- Parameters that 00_scope.md R5 allows have at most 32768 words of memory. -/
theorem Params.memWords_le {p : Params} (h : p.wf = true) : p.memWords ≤ 32768 := by
  simp only [Params.wf, Bool.and_eq_true, decide_eq_true_eq] at h
  obtain ⟨⟨-, hle⟩, -⟩ := h
  exact hle

end Sys2Proof

namespace Sys2Proof.Machine

/-- A fetch gives no more words than memory has from its address on (30_encoding.md R95). -/
theorem fetchWords_length_le (s : State) (n a : Nat) :
    (fetchWords s n a).length ≤ s.params.memWords - a := by
  induction n generalizing a with
  | zero => exact Nat.zero_le _
  | succ n ih =>
    by_cases ha : a < s.params.memWords
    · have := ih (a + 1)
      rw [fetchWords_inside n ha, List.length_cons]
      omega
    · rw [fetchWords_outside (n + 1) (Nat.not_lt.mp ha)]
      exact Nat.zero_le _

/-- Nothing decodes outside memory (R95). -/
theorem pc_lt_of_decodeAt {s : State} {i : Instr} (h : decodeAt s = .ok i) :
    s.pc.toNat < s.params.memWords := by
  by_contra hpc
  rw [decodeAt, fetchWords_outside 4 (Nat.not_lt.mp hpc)] at h
  cases h

/-- An instruction that decodes ends inside memory (10_state.md R29). -/
theorem decodeAt_end_le {s : State} {i : Instr} (h : decodeAt s = .ok i) :
    s.pc.toNat + (encode i).length ≤ s.params.memWords := by
  have hpc := pc_lt_of_decodeAt h
  obtain ⟨⟨rest, hws⟩, -⟩ := decode_ok h
  have hfetch := fetchWords_length_le s 4 s.pc.toNat
  rw [hws, List.length_append] at hfetch
  omega

/-- Settles O7: an instruction that decodes ends inside memory, and memory is smaller than the
range of pc. -/
theorem pcNeverWraps : Obligations.PcNeverWraps := by
  intro s i hp hd
  have hend := decodeAt_end_le hd
  have hmem := Params.memWords_le hp
  refine ⟨hend, ?_⟩
  rw [BitVec.toNat_add, BitVec.toNat_ofNat]
  omega

/-! ### Where pc is after a completed instruction -/

/-- A destination write does not move pc. -/
theorem writeDest_pc {s t : State} {a : Operand} {v : Word} (h : writeDest s a v = .ok t) :
    t.pc = s.pc := by
  obtain ⟨hpc, -⟩ := writeDest_keeps h
  exact hpc

/-- A completed instruction that is no transfer leaves pc just past itself, unless it is an `in`
that waits (10_state.md R26, R28, 43_io.md R221). -/
theorem Effect.pc {i : Instr} {s t : State} (h : Effect i s t) (hi : isTransfer i = false)
    (ht : t.run ≠ .waitIn) : t.pc = s.pc + BitVec.ofNat 16 (encode i).length := by
  cases i with
  | jmp _ | jt _ _ | jf _ _ | call _ | ret => cases hi
  | halt | out _ | noop =>
    obtain rfl := h
    rfl
  | push _ | wmem _ _ =>
    obtain ⟨-, rfl⟩ := h
    rfl
  | set _ _ | eq _ _ _ | gt _ _ _ | add _ _ _ | mult _ _ _ | and _ _ _ | or _ _ _ | not _ _ =>
    exact writeDest_pc h
  | rmem _ _ => exact writeDest_pc h.2
  | mod _ _ _ =>
    obtain ⟨_, -, hw⟩ := h
    exact writeDest_pc hw
  | pop _ =>
    obtain ⟨_, _, -, hw⟩ := h
    exact writeDest_pc hw
  | inp _ =>
    rcases h with ⟨-, rfl⟩ | ⟨hw, -, rfl⟩ | ⟨_, _, -, -, hw⟩
    · exact absurd rfl ht
    · exact absurd hw ht
    · exact writeDest_pc hw

/-- Settles O44: a fault ends in FAULTED, and what completes leaves pc past the instruction. -/
theorem pcMovesPastTheInstruction : Obligations.PcMovesPastTheInstruction := by
  intro i s t hi _ he ht
  rcases exec_cases he with heff | ⟨e, -, rfl⟩
  · exact heff.pc hi (by rcases ht with ht | ht <;> simp [ht])
  · simp at ht

/-! ### The locations an instruction names -/

/-- Between `s` and `t` nothing changes among registers, memory and stack but what `i` names: its
destination, the word it stores to, and the stack if it uses it (10_state.md R23, R35,
20_memory.md R51, R52). -/
structure OnlyNamed (i : Instr) (s t : State) : Prop where
  regs : ∀ r, destOf i ≠ some (.reg r) → t.reg r = s.reg r
  memory : ∀ x, storeAddress i s ≠ some x → t.word x = s.word x
  stack : usesStack i = false → t.stack = s.stack

/-- An instruction with a destination stores to memory only through it (R51). -/
theorem storeAddress_of_destOf {i : Instr} {a : Operand} (s : State) (h : destOf i = some a) :
    storeAddress i s = storedAt a := by
  have hbind : (destOf i).bind storedAt = storedAt a := by rw [h, Option.bind_some]
  cases i with
  | wmem _ _ => cases h
  | _ => exact hbind

/-- A destination write changes the destination alone, whatever the form of memory
(30_encoding.md R85). -/
theorem writeDest_onlyDest {s t : State} {a : Operand} {v : Word}
    (h : writeDest s a v = .ok t) : OnlyDest a s t := by
  rcases writeDest_ok h with ⟨r, rfl, rfl⟩ | ⟨d, rfl, -, rfl⟩
  · exact ⟨fun q hq => s.setReg_reg_of_ne v fun e => hq (e ▸ rfl), fun _ _ => rfl⟩
  · exact ⟨fun _ _ => rfl, fun x hx => s.putWord_word_of_ne v fun e => hx (e ▸ rfl)⟩

/-- Where no register or memory word changes, only the stack needs naming. -/
theorem OnlyNamed.of_same {i : Instr} {s t : State} (hr : SameRegs s t) (hm : SameMemory s t)
    (hs : usesStack i = false → t.stack = s.stack) : OnlyNamed i s t :=
  ⟨fun r _ => hr r, fun x _ => hm x, hs⟩

/-- A write to the destination of `i` changes only what `i` names, if what came before it did
so without touching registers and memory. -/
theorem OnlyNamed.of_writeDest {i : Instr} {s u t : State} {a : Operand} {v : Word}
    (h : writeDest u a v = .ok t) (hi : destOf i = some a) (hr : SameRegs s u)
    (hm : SameMemory s u) (hs : usesStack i = false → u.stack = s.stack) : OnlyNamed i s t := by
  obtain ⟨hregs, hmem⟩ := writeDest_onlyDest h
  obtain ⟨-, hstack, -⟩ := writeDest_keeps h
  refine ⟨fun r hd => ?_, fun x hx => ?_, fun hu => hstack.trans (hs hu)⟩
  · exact (hregs r fun e => hd (hi.trans (congrArg some e))).trans (hr r)
  · rw [storeAddress_of_destOf s hi] at hx
    exact (hmem x hx).trans (hm x)

/-- A completed instruction changes only what it names. -/
theorem Effect.onlyNamed {i : Instr} {s t : State} (h : Effect i s t) : OnlyNamed i s t := by
  cases i with
  | halt | jmp _ | out _ | noop =>
    obtain rfl := h
    exact .of_same (fun _ => rfl) (fun _ => rfl) (fun _ => rfl)
  | jt _ _ | jf _ _ =>
    rw [Effect, branch_eq] at h
    obtain rfl := h
    exact .of_same (fun _ => rfl) (fun _ => rfl) (fun _ => rfl)
  | push _ | call _ =>
    obtain ⟨-, rfl⟩ := h
    exact .of_same (fun _ => rfl) (fun _ => rfl) nofun
  | ret =>
    rcases h with ⟨-, rfl⟩ | ⟨_, _, -, rfl⟩ <;>
      exact .of_same (fun _ => rfl) (fun _ => rfl) nofun
  | wmem a b =>
    obtain ⟨-, rfl⟩ := h
    refine ⟨fun _ _ => rfl, fun x hx => ?_, fun _ => rfl⟩
    exact (s.advance 3).putWord_word_of_ne _ fun e => hx (congrArg some e.symm)
  | set _ _ | eq _ _ _ | gt _ _ _ | add _ _ _ | mult _ _ _ | and _ _ _ | or _ _ _ | not _ _ =>
    exact .of_writeDest h rfl (fun _ => rfl) (fun _ => rfl) (fun _ => rfl)
  | rmem _ _ => exact .of_writeDest h.2 rfl (fun _ => rfl) (fun _ => rfl) (fun _ => rfl)
  | mod _ _ _ =>
    obtain ⟨_, -, hw⟩ := h
    exact .of_writeDest hw rfl (fun _ => rfl) (fun _ => rfl) (fun _ => rfl)
  | pop _ =>
    obtain ⟨_, _, -, hw⟩ := h
    exact .of_writeDest hw rfl (fun _ => rfl) (fun _ => rfl) nofun
  | inp _ =>
    rcases h with ⟨-, rfl⟩ | ⟨-, -, rfl⟩ | ⟨_, _, -, -, hw⟩
    · exact .of_same (fun _ => rfl) (fun _ => rfl) (fun _ => rfl)
    · exact .of_same (fun _ => rfl) (fun _ => rfl) (fun _ => rfl)
    · exact .of_writeDest hw rfl (fun _ => rfl) (fun _ => rfl) (fun _ => rfl)

/-- A fault changes no register, memory word or stack entry (60_exceptions.md R242). -/
theorem takeFault_onlyNamed (i : Instr) (s : State) (e : Raised) : OnlyNamed i s (takeFault s e) :=
  .of_same (takeFault_reg s e) (takeFault_word s e) fun _ => takeFault_stack s e

/-- Settles O45, by the two ways an instruction ends: completed, or with a fault. -/
theorem onlyNamedLocationsChange : Obligations.OnlyNamedLocationsChange := by
  intro i s t he
  have h : OnlyNamed i s t := by
    rcases exec_cases he with heff | ⟨e, -, rfl⟩
    · exact heff.onlyNamed
    · exact takeFault_onlyNamed i s e
  exact ⟨h.regs, h.memory, h.stack⟩

end Sys2Proof.Machine
end

section
/-!
PROOFS. Program memory: every step keeps it canonical and inside the address space (O52), LoadImage
lays out the image and starts the block, or is refused (O40), and the fetch right after a wmem sees
the stored word (O46).
-/

namespace Sys2Proof.Machine

/-! ### Memory stays canonical -/

/-- A Reset leaves memory listing nothing. -/
theorem hostReset_memoryOk (s : State) : MemoryOk (hostReset s) :=
  ⟨rfl, fun _ hc => absurd hc List.not_mem_nil⟩

/-- Every LoadImage keeps memory canonical and inside the address space (20_memory.md R62, R63). -/
theorem MemoryOk.loadImage {s : State} (h : MemoryOk s) (bytes : List Byte) :
    MemoryOk (loadImage s bytes) := by
  rcases loadImage_cases s bytes with ⟨-, hok, he⟩ | ⟨-, -, he⟩ | ⟨-, he⟩ <;> rw [he]
  · exact loadSucceeds_memoryOk hok
  · exact h
  · exact h

/-- So does an instruction, whether it completes or faults (R54, R55). -/
theorem MemoryOk.exec {i : Instr} {s t : State} (h : MemoryOk s) (he : exec i s = .next t) :
    MemoryOk t := by
  rcases exec_cases he with heff | ⟨e, -, rfl⟩
  · exact heff.frame.memoryOk h
  · exact h

/-- Settles O52, by the cases of a step. -/
theorem stepKeepsMemoryCanonical : Obligations.StepKeepsMemoryCanonical := by
  intro s t hs h
  have hm : MemoryOk s.ticked := hs
  rcases step_cases h with ⟨-, rfl⟩ | ⟨bytes, -, rfl⟩ | ⟨v, -, rfl⟩ | ⟨-, -, -, rfl⟩ |
    ⟨-, -, e, -, rfl⟩ | ⟨-, -, i, -, he⟩ | ⟨-, -, a, -, he⟩
  · exact hostReset_memoryOk s.ticked
  · exact hm.loadImage bytes
  · exact hm
  · exact hm
  · exact hm
  · exact hm.exec he
  · exact hm.exec he

/-! ### What a loaded image reads as -/

/-- Word `i` of an image is its bytes `2 i` and `2 i + 1`, the low byte first (20_memory.md R58,
R62). -/
theorem imageWords_getD_toNat : ∀ (bytes : List Byte) (i : Nat), i < bytes.length / 2 →
    ((imageWords bytes).getD i 0).toNat =
      (bytes.getD (2 * i) 0).toNat + 256 * (bytes.getD (2 * i + 1) 0).toNat
  | [], i, h => absurd h (by simp)
  | [_], i, h => absurd h (by simp)
  | lo :: hi :: _, 0, _ => by
    have hlo := lo.isLt
    have hhi := hi.isLt
    have hfits : lo.toNat + 256 * hi.toNat < 2 ^ 16 := by omega
    exact Nat.mod_eq_of_lt hfits
  | _ :: _ :: rest, i + 1, h =>
    imageWords_getD_toNat rest i (by simp only [List.length_cons] at h; omega)

/-- Memory after a successful load is the image's words from address 0, and 0 beyond (R62, R64). -/
theorem loadSucceeds_word (s : State) (bytes : List Byte) (x : Nat) :
    (loadSucceeds s bytes).word x = (imageWords bytes).getD x 0 := by
  rw [State.word, loadSucceeds_mem, ← Memory.read_ofWords 0 x, Nat.zero_add]

/-- Beyond the image memory reads as 0 (R64). -/
theorem loadSucceeds_word_beyond (s : State) {bytes : List Byte} {x : Nat}
    (h : bytes.length / 2 ≤ x) : (loadSucceeds s bytes).word x = 0 := by
  rw [loadSucceeds_word]
  exact List.getD_eq_default _ _ ((imageWords_length bytes).trans_le h)

/-- The step in which the host delivers an image. -/
theorem step_loadImage {s : State} {bytes : List Byte} {rest : List HostEvent}
    (h : s.schedule = .loadImage bytes :: rest) : step s = .next (loadImage s.ticked bytes) := by
  have he : nextEvent s = .loadImage bytes := by rw [nextEvent, h, List.headD_cons]
  rw [step_eq, he, eventStep]

/-- An image is refused exactly when it is empty, of odd length, or too long (R63). -/
theorem imageOk_ne_iff (p : Params) (bytes : List Byte) : imageOk p bytes ≠ true ↔
    bytes.length = 0 ∨ bytes.length % 2 = 1 ∨ p.memWords < bytes.length / 2 := by
  rw [Ne, imageOk_iff]
  omega

/-- A block in IDLE takes an image that is accepted (R62). -/
theorem loadImage_accepted {s : State} {bytes : List Byte} (hr : s.run = .idle)
    (hok : imageOk s.params bytes = true) : loadImage s bytes = loadSucceeds s bytes := by
  rw [loadImage, if_pos hr, if_pos hok]

/-- A block in IDLE refuses any other (R63). -/
theorem loadImage_refused {s : State} {bytes : List Byte} (hr : s.run = .idle)
    (hno : imageOk s.params bytes ≠ true) : loadImage s bytes = loadRefused s := by
  rw [loadImage, if_pos hr, if_neg hno]

/-- A block that is not in IDLE ignores a LoadImage (R62). -/
theorem loadImage_ignored {s : State} {bytes : List Byte} (hr : s.run ≠ .idle) :
    loadImage s bytes = s := by
  rw [loadImage, if_neg hr]

/-- Settles O40, by the three things a LoadImage can do. -/
theorem loadImageStartsTheBlock : Obligations.LoadImageStartsTheBlock := by
  intro s bytes rest hsched
  have htail : s.ticked.schedule = rest := by rw [State.ticked_schedule, hsched, List.tail_cons]
  rw [step_loadImage hsched]
  refine ⟨fun hr hne heven hfits => ?_, fun hr hbad => ?_, fun hr => ?_⟩
  · have hok : imageOk s.ticked.params bytes = true :=
      (imageOk_iff _ _).mpr ⟨hne, heven, hfits⟩
    have hwords : ∀ i, i < bytes.length / 2 → ((loadSucceeds s.ticked bytes).word i).toNat =
        (bytes.getD (2 * i) 0).toNat + 256 * (bytes.getD (2 * i + 1) 0).toNat := fun i hi => by
      rw [loadSucceeds_word, imageWords_getD_toNat bytes i hi]
    exact ⟨_, congrArg _ (loadImage_accepted (s := s.ticked) hr hok), hwords,
      fun _ hi => loadSucceeds_word_beyond _ hi, State.reg_of_zero rfl, rfl, rfl, rfl, rfl, rfl,
      rfl, rfl, List.append_nil _, rfl, rfl, rfl, rfl, htail⟩
  · have hno : imageOk s.ticked.params bytes ≠ true := (imageOk_ne_iff _ _).mpr hbad
    exact ⟨_, congrArg _ (loadImage_refused (s := s.ticked) hr hno), rfl, rfl, rfl, rfl, rfl,
      fun _ => rfl, rfl, rfl, fun _ => rfl, ⟨rfl, rfl, rfl⟩, rfl, rfl, htail⟩
  · rw [loadImage_ignored (s := s.ticked) hr]

/-! ### Fetching after a store -/

/-- A store below the fetched addresses is not seen by the fetch. -/
theorem fetchWords_putWord_of_lt (s : State) {x a : Nat} (v : Word) (n : Nat) (h : x < a) :
    fetchWords (s.putWord x v) n a = fetchWords s n a := by
  induction n generalizing a with
  | zero => rfl
  | succ n ih =>
    rw [fetchWords, fetchWords, State.putWord_params, ih (Nat.lt_succ_of_lt h),
      s.putWord_word_of_ne v (Nat.ne_of_gt h)]

/-- A fetch at the address of a store gives the stored word, then the words behind it as they were
(20_memory.md R70). -/
theorem fetchWords_putWord_self {s : State} {x : Nat} (v : Word) (n : Nat)
    (hm : Memory.wf s.mem = true) (hx : x < s.params.memWords) :
    fetchWords (s.putWord x v) (n + 1) x = v :: fetchWords s n (x + 1) := by
  rw [fetchWords_inside n (s := s.putWord x v) hx, State.putWord_word_self x v hm,
    fetchWords_putWord_of_lt s v n (Nat.lt_succ_self x)]

/-- A wmem inside memory completes with its store (40_data_movement.md R124). -/
theorem exec_wmem_inside {s : State} {a b : Operand}
    (h : (valueOf s a).toNat < s.params.memWords) :
    exec (.wmem a b) s = .next ((s.advance 3).putWord (valueOf s a).toNat (valueOf s b)) := by
  rw [exec, execWmem, memWrite_inside (s := s.advance 3) _ h, finish_ok]

/-- Settles O46: pc after the wmem is the stored address, where the fetch sees the stored word. -/
theorem fetchSeesThePrecedingStore : Obligations.FetchSeesThePrecedingStore := by
  intro s a b hp hm ha hlt
  have hle := Params.memWords_le hp
  have hpc : (s.pc + 3).toNat = s.pc.toNat + 3 := by bv_omega
  have hx : (valueOf s a).toNat = s.pc.toNat + 3 := by rw [ha, hpc]
  refine ⟨_, exec_wmem_inside (hx ▸ hlt), ?_⟩
  have hpc' : ((s.advance 3).putWord (s.pc.toNat + 3) (valueOf s b)).pc.toNat = s.pc.toNat + 3 :=
    hpc
  rw [hx, decodeAt, hpc', fetchWords_putWord_self (s := s.advance 3) (valueOf s b) 3 hm hlt,
    fetchWords_congr (s := s) (t := s.advance 3) rfl fun _ => rfl, State.putWord_params,
    State.advance_params]

end Sys2Proof.Machine
end

section
/-!
PROOFS. The encoding: the decoder gives an encoded instruction back (O1, O2) and resolves the three
classes of operand word (O4); it is the spec's decode procedure, check by check (O5), which
`Agrees` follows operand by operand; and so a step in RUN executes the instruction at pc (O10) or
takes the fault of the first check that fails (O6, O8, O9).
-/

/-! ### Encoding and decoding -/

namespace Sys2Proof

theorem formV_word (a : Operand) (rest : List Word) (mk : Operand → Instr) :
    formV (a.word :: rest) mk = .ok (mk a) :=
  needV_word 1 a rest _

theorem formD_word {memWords : Nat} {a : Operand} (rest : List Word) (mk : Operand → Instr)
    (h : a.destOk memWords = true) : formD memWords (a.word :: rest) mk = .ok (mk a) :=
  needD_word 1 rest _ h

theorem formVV_word (a b : Operand) (rest : List Word) (mk : Operand → Operand → Instr) :
    formVV (a.word :: b.word :: rest) mk = .ok (mk a b) := by
  rw [formVV, needV_word, needV_word]

theorem formDV_word {memWords : Nat} {a : Operand} (b : Operand) (rest : List Word)
    (mk : Operand → Operand → Instr) (h : a.destOk memWords = true) :
    formDV memWords (a.word :: b.word :: rest) mk = .ok (mk a b) := by
  rw [formDV, needD_word 1 _ _ h, needV_word]

theorem formDVV_word {memWords : Nat} {a : Operand} (b c : Operand) (rest : List Word)
    (mk : Operand → Operand → Operand → Instr) (h : a.destOk memWords = true) :
    formDVV memWords (a.word :: b.word :: c.word :: rest) mk = .ok (mk a b c) := by
  rw [formDVV, needD_word 1 _ _ h, needV_word, needV_word]

/-- Settles O1, by the operand form of the instruction. -/
theorem decodeEncodeRoundTrip : Obligations.DecodeEncodeRoundTrip := by
  intro memWords i rest h
  cases i with
  | halt | ret | noop => rfl
  | push a | jmp a | call a | out a => exact formV_word a rest _
  | pop _ | inp _ => exact formD_word rest _ h
  | jt a b | jf a b | wmem a b => exact formVV_word a b rest _
  | set _ b | not _ b | rmem _ b => exact formDV_word b rest _ h
  | eq _ b c | gt _ b c | add _ b c | mult _ b c | mod _ b c | and _ b c | or _ b c =>
    exact formDVV_word b c rest _ h

/-- Settles O2: `decode_ok` says it. -/
theorem decodedWordsAreTheEncoding : Obligations.DecodedWordsAreTheEncoding :=
  fun _ _ _ h => decode_ok h

/-- An instruction has at most four words (30_encoding.md R80). -/
theorem encode_length_le (i : Instr) : (encode i).length ≤ 4 := by
  cases i <;> exact Nat.le_of_ble_eq_true rfl

/-! ### Operand words -/

/-- A word up to 32767 is a literal (30_encoding.md R83). -/
theorem operandOf_literal {w : Word} (h : w.toNat ≤ 32767) :
    operandOf w = some (.lit (w.setWidth 15)) := by
  rw [operandOf, if_pos (by omega)]

/-- A word from 32768 to 32775 names a register (R83). -/
theorem operandOf_register {w : Word} (hl : 32768 ≤ w.toNat) (hh : w.toNat ≤ 32775) :
    operandOf w = some (.reg (Fin.ofNat 8 (w.toNat - 32768))) := by
  rw [operandOf, if_neg (by omega), if_pos (by omega)]

/-- A destination is refused exactly when its word is a literal at or beyond MEM_WORDS (R95). -/
theorem destOk_eq_false_iff {memWords : Nat} {o : Operand} :
    o.destOk memWords = false ↔ o.word.toNat ≤ 32767 ∧ memWords ≤ o.word.toNat := by
  cases o with
  | lit v =>
    have hv := v.isLt
    have hn : (Operand.lit v).word.toNat = v.toNat := Machine.literal_toNat v
    rw [hn, Operand.destOk, decide_eq_false_iff_not]
    omega
  | reg r =>
    have hr := r.isLt
    have hn : (Operand.reg r).word.toNat = 32768 + r.val := Nat.mod_eq_of_lt (by omega)
    rw [hn]
    exact ⟨nofun, fun h => by omega⟩

end Sys2Proof

namespace Sys2Proof.Machine

/-- Settles O4, by the class of the word. -/
theorem operandWordsResolve : Obligations.OperandWordsResolve := by
  intro s w v
  refine ⟨fun h => ?_, fun hl hh => ?_, fun h => operandOf_none.mpr h⟩
  · have ho := operandOf_literal h
    have hw : (w.setWidth 15).setWidth 16 = w := word_of_operandOf ho
    exact ⟨_, ho, hw, by rw [writeDest, hw]⟩
  · exact ⟨_, Nat.mod_eq_of_lt (by omega), operandOf_register hl hh, rfl, rfl⟩

/-! ### The decoder and the spec's procedure -/

/-- The opcodes are the numbers up to 21 (30_encoding.md R89). -/
theorem kindsOf_eq_none_iff {n : Nat} : kindsOf n = none ↔ 21 < n := by
  unfold kindsOf
  split
  case h_23 => grind
  all_goals exact ⟨nofun, fun h => by omega⟩

/-- The answer `dec` of the decoder agrees with the answer `spec` of R95's procedure on the words
that follow `pre`: the instruction of all those words, or the error that raises its fault. -/
def Agrees (s : State) (pre : List Word) (spec : Except Raised (List Word))
    (dec : Except DecodeError Instr) : Prop :=
  match spec with
  | .ok ws => ∃ i, dec = .ok i ∧ encode i = pre ++ ws
  | .error f => ∃ e, dec = .error e ∧ decodeFault s.pc e = f

/-- A word that the procedure fetches before the rest goes to the words that agree already. -/
theorem Agrees.fetched {s : State} {pre : List Word} {w : Word} {ks : List OperandKind} {a : Nat}
    {dec : Except DecodeError Instr} (h : Agrees s (pre ++ [w]) (specOperands s ks a) dec) :
    Agrees s pre (match specOperands s ks a with
      | .error f => .error f
      | .ok ws => .ok (w :: ws)) dec := by
  cases hspec : specOperands s ks a with
  | error f => rwa [hspec] at h
  | ok ws =>
    rw [hspec] at h
    obtain ⟨i, hi, henc⟩ := h
    exact ⟨i, hi, by rw [henc, List.append_assoc, List.singleton_append]⟩

/-- One operand of either kind (R95): the fetch and the check of the operand word are the same on
both sides; `bad` is the check of a literal destination, and `good` is what follows. -/
theorem Agrees.operand {s : State} {pre : List Word} {kind : OperandKind}
    {ks : List OperandKind} {j n : Nat} {k : Operand → List Word → Except DecodeError Instr}
    (bad : ∀ o ws, kind = .D → o.destOk s.params.memWords = false →
      k o ws = .error (.destOutside o.word))
    (good : ∀ o, (kind = .D → o.destOk s.params.memWords = true) →
      Agrees s (pre ++ [o.word]) (specOperands s ks (s.pc.toNat + (j + 1)))
        (k o (fetchWords s n (s.pc.toNat + (j + 1))))) :
    Agrees s pre (specOperands s (kind :: ks) (s.pc.toNat + j))
      (needV j (fetchWords s (n + 1) (s.pc.toNat + j)) k) := by
  rw [specOperands]
  by_cases hin : s.params.memWords ≤ s.pc.toNat + j
  · rw [if_pos hin, fetchWords_outside (n + 1) hin]
    exact ⟨_, rfl, by simp [decodeFault, BitVec.ofNat_add]⟩
  rw [if_neg hin, fetchWords_inside n (Nat.not_le.mp hin)]
  cases ho : operandOf (s.word (s.pc.toNat + j)) with
  | none =>
    have hw : 32775 < (s.word (s.pc.toNat + j)).toNat := operandOf_none.mp ho
    rw [if_pos hw, needV, ho]
    exact ⟨_, rfl, rfl⟩
  | some o =>
    have hw : ¬ 32775 < (s.word (s.pc.toNat + j)).toNat := fun hw => by
      rw [operandOf_none.mpr hw] at ho
      cases ho
    rw [if_neg hw, ← word_of_operandOf ho, needV_word]
    by_cases hd : kind = .D ∧ o.destOk s.params.memWords = false
    · obtain ⟨hk, hbad⟩ := hd
      rw [if_pos ⟨hk, destOk_eq_false_iff.mp hbad⟩]
      exact ⟨_, bad o _ hk hbad, rfl⟩
    · rw [if_neg fun ⟨hk, hbad⟩ => hd ⟨hk, destOk_eq_false_iff.mpr hbad⟩]
      exact (good o fun hk => Bool.of_not_eq_false fun h => hd ⟨hk, h⟩).fetched

/-- A value operand agrees if what follows it does. -/
theorem Agrees.value {s : State} {pre : List Word} {ks : List OperandKind} {j n : Nat}
    {k : Operand → List Word → Except DecodeError Instr}
    (good : ∀ o, Agrees s (pre ++ [o.word]) (specOperands s ks (s.pc.toNat + (j + 1)))
      (k o (fetchWords s n (s.pc.toNat + (j + 1))))) :
    Agrees s pre (specOperands s (.V :: ks) (s.pc.toNat + j))
      (needV j (fetchWords s (n + 1) (s.pc.toNat + j)) k) :=
  .operand nofun fun o _ => good o

/-- So does a destination operand, whose further check both sides make. -/
theorem Agrees.destination {s : State} {pre : List Word} {ks : List OperandKind} {j n : Nat}
    {k : Operand → List Word → Except DecodeError Instr}
    (good : ∀ o, Agrees s (pre ++ [o.word]) (specOperands s ks (s.pc.toNat + (j + 1)))
      (k o (fetchWords s n (s.pc.toNat + (j + 1))))) :
    Agrees s pre (specOperands s (.D :: ks) (s.pc.toNat + j))
      (needD s.params.memWords j (fetchWords s (n + 1) (s.pc.toNat + j)) k) := by
  refine .operand (fun o ws _ hbad => ?_) fun o hok => ?_
  · rw [if_neg (Bool.not_eq_true _ ▸ hbad)]
  · rw [if_pos (hok rfl)]
    exact good o

/-- With no operand left, the instruction decoded is to be that of the words fetched. -/
theorem Agrees.done {s : State} {pre : List Word} {i : Instr} (a : Nat) (h : encode i = pre) :
    Agrees s pre (specOperands s [] a) (.ok i) :=
  ⟨i, rfl, h.trans (List.append_nil pre).symm⟩

/-! The five operand forms, at the address after the opcode word (R86). -/

theorem agrees_formV {s : State} {op : Word} {mk : Operand → Instr}
    (h : ∀ a, encode (mk a) = [op, a.word]) :
    Agrees s [op] (specOperands s [.V] (s.pc.toNat + 1))
      (formV (fetchWords s 3 (s.pc.toNat + 1)) mk) :=
  .value fun a => .done _ (h a)

theorem agrees_formD {s : State} {op : Word} {mk : Operand → Instr}
    (h : ∀ a, encode (mk a) = [op, a.word]) :
    Agrees s [op] (specOperands s [.D] (s.pc.toNat + 1))
      (formD s.params.memWords (fetchWords s 3 (s.pc.toNat + 1)) mk) :=
  .destination fun a => .done _ (h a)

theorem agrees_formVV {s : State} {op : Word} {mk : Operand → Operand → Instr}
    (h : ∀ a b, encode (mk a b) = [op, a.word, b.word]) :
    Agrees s [op] (specOperands s [.V, .V] (s.pc.toNat + 1))
      (formVV (fetchWords s 3 (s.pc.toNat + 1)) mk) :=
  .value fun a => .value fun b => .done _ (h a b)

theorem agrees_formDV {s : State} {op : Word} {mk : Operand → Operand → Instr}
    (h : ∀ a b, encode (mk a b) = [op, a.word, b.word]) :
    Agrees s [op] (specOperands s [.D, .V] (s.pc.toNat + 1))
      (formDV s.params.memWords (fetchWords s 3 (s.pc.toNat + 1)) mk) :=
  .destination fun a => .value fun b => .done _ (h a b)

theorem agrees_formDVV {s : State} {op : Word} {mk : Operand → Operand → Operand → Instr}
    (h : ∀ a b c, encode (mk a b c) = [op, a.word, b.word, c.word]) :
    Agrees s [op] (specOperands s [.D, .V, .V] (s.pc.toNat + 1))
      (formDVV s.params.memWords (fetchWords s 3 (s.pc.toNat + 1)) mk) :=
  .destination fun a => .value fun b => .value fun c => .done _ (h a b c)

/-- An opcode word above 21 is refused, whatever follows it (R89). -/
theorem decode_invalidOpcode {memWords : Nat} {op : Word} (rest : List Word)
    (h : 21 < op.toNat) : decode memWords (op :: rest) = .error (.invalidOpcode op) := by
  simp only [decode]
  split
  case h_23 => rfl
  all_goals omega

/-- The decoder agrees with the procedure on the operands of every opcode (R88). -/
theorem decode_agrees {s : State} {op : Word} {ks : List OperandKind}
    (h : kindsOf op.toNat = some ks) :
    Agrees s [op] (specOperands s ks (s.pc.toNat + 1))
      (decode s.params.memWords (op :: fetchWords s 3 (s.pc.toNat + 1))) := by
  simp only [decode]
  split
  case h_1 hop | h_19 hop | h_22 hop =>
    obtain rfl := Option.some.inj (hop ▸ h)
    exact .done _ (by rw [word_eq_of_toNat hop]; rfl)
  case h_3 hop | h_7 hop | h_18 hop | h_20 hop =>
    obtain rfl := Option.some.inj (hop ▸ h)
    exact agrees_formV fun _ => by rw [word_eq_of_toNat hop]; rfl
  case h_4 hop | h_21 hop =>
    obtain rfl := Option.some.inj (hop ▸ h)
    exact agrees_formD fun _ => by rw [word_eq_of_toNat hop]; rfl
  case h_8 hop | h_9 hop | h_17 hop =>
    obtain rfl := Option.some.inj (hop ▸ h)
    exact agrees_formVV fun _ _ => by rw [word_eq_of_toNat hop]; rfl
  case h_2 hop | h_15 hop | h_16 hop =>
    obtain rfl := Option.some.inj (hop ▸ h)
    exact agrees_formDV fun _ _ => by rw [word_eq_of_toNat hop]; rfl
  case h_5 hop | h_6 hop | h_10 hop | h_11 hop | h_12 hop | h_13 hop | h_14 hop =>
    obtain rfl := Option.some.inj (hop ▸ h)
    exact agrees_formDVV fun _ _ _ => by rw [word_eq_of_toNat hop]; rfl
  case h_23 =>
    have hop : 21 < op.toNat := by grind
    rw [kindsOf_eq_none_iff.mpr hop] at h
    cases h

/-- A fetch outside memory is the first check (R95). -/
theorem specDecode_outside {s : State} (h : s.params.memWords ≤ s.pc.toNat) :
    specDecode s = .error ⟨.addressOutOfRange, s.pc⟩ := by
  rw [specDecode, if_pos h]

/-- The opcode is the second (R89, R95). -/
theorem specDecode_invalidOpcode {s : State} (hin : s.pc.toNat < s.params.memWords)
    (hop : 21 < (s.word s.pc.toNat).toNat) :
    specDecode s = .error ⟨.invalidOpcode, s.word s.pc.toNat⟩ := by
  rw [specDecode, if_neg (Nat.not_le.mpr hin), kindsOf_eq_none_iff.mpr hop]

/-- The decoder at pc agrees with the whole procedure (R95). -/
theorem decodeAt_agrees (s : State) : Agrees s [] (specDecode s) (decodeAt s) := by
  by_cases hin : s.pc.toNat < s.params.memWords
  · rw [decodeAt, fetchWords_inside 3 hin]
    cases hk : kindsOf (s.word s.pc.toNat).toNat with
    | none =>
      have hop : 21 < (s.word s.pc.toNat).toNat := kindsOf_eq_none_iff.mp hk
      rw [specDecode_invalidOpcode hin hop, decode_invalidOpcode _ hop]
      exact ⟨_, rfl, rfl⟩
    | some ks =>
      rw [specDecode, if_neg (Nat.not_le.mpr hin), hk]
      exact (decode_agrees hk).fetched
  · have hout := Nat.not_lt.mp hin
    rw [specDecode_outside hout, decodeAt, fetchWords_outside 4 hout]
    exact ⟨_, rfl, by simp [decodeFault]⟩

/-- Settles O5: `decodeAt_agrees`, read for either answer of the procedure. -/
theorem decodeIsTheSpecProcedure : Obligations.DecodeIsTheSpecProcedure := by
  intro s
  have h := decodeAt_agrees s
  exact ⟨fun ws hs => by rwa [hs] at h, fun f hs => by rwa [hs] at h⟩

/-! ### The step of an instruction in RUN -/

/-- With the host quiet, a step in RUN executes what is decoded at pc (R96). -/
theorem step_of_decodeAt_ok {s : State} {i : Instr} (hq : HostQuiet s) (hr : s.run = .run)
    (hd : decodeAt s = .ok i) : step s = exec i s.ticked := by
  rw [step_run hq hr, runStep, decodeAt_ticked, hd]

/-- Where decoding fails, it takes the fault of the failed check (R95). -/
theorem step_of_decodeAt_error {s : State} {e : DecodeError} (hq : HostQuiet s)
    (hr : s.run = .run) (hd : decodeAt s = .error e) :
    step s = .next (takeFault s.ticked (decodeFault s.pc e)) := by
  rw [step_run hq hr, runStep, decodeAt_ticked, hd, State.ticked_pc]

/-- Settles O6: by O5 the decoder fails with the same fault, which the step takes. -/
theorem failedDecodeTakesItsFault : Obligations.FailedDecodeTakesItsFault := by
  intro s f hq hr hs
  obtain ⟨-, hfail⟩ := decodeIsTheSpecProcedure s
  obtain ⟨e, hd, rfl⟩ := hfail f hs
  exact ⟨_, step_of_decodeAt_error hq hr hd, takeFault_faultsWith s.ticked _⟩

/-- Settles O8: the opcode is what fails first inside memory. -/
theorem invalidOpcodeFaults : Obligations.InvalidOpcodeFaults :=
  fun s hq hr hin hop => failedDecodeTakesItsFault s _ hq hr (specDecode_invalidOpcode hin hop)

/-- Settles O9: outside memory the fetch is what fails first. -/
theorem fetchOutsideMemoryFaults : Obligations.FetchOutsideMemoryFaults :=
  fun s hq hr hout => failedDecodeTakesItsFault s _ hq hr (specDecode_outside hout)

/-- A fetch of at least as many words as stand at an address gives those words first. -/
theorem fetchWords_of_words {s : State} {ws : List Word} {n a : Nat} (hn : ws.length ≤ n)
    (h : ∀ (j : Nat) (hj : j < ws.length),
      a + j < s.params.memWords ∧ s.word (a + j) = ws[j]) :
    ∃ rest, fetchWords s n a = ws ++ rest := by
  induction ws generalizing n a with
  | nil => exact ⟨_, rfl⟩
  | cons w ws ih =>
    obtain ⟨m, rfl⟩ : ∃ m, n = m + 1 := Nat.exists_eq_add_one.mpr (by simp at hn; omega)
    obtain ⟨hin, hw⟩ : a < s.params.memWords ∧ s.word a = w := h 0 (Nat.zero_lt_succ _)
    obtain ⟨rest, hrest⟩ := ih (a := a + 1) (Nat.le_of_succ_le_succ hn) fun j hj => by
      rw [Nat.add_assoc, Nat.add_comm 1 j]
      exact h (j + 1) (Nat.succ_lt_succ hj)
    exact ⟨rest, by rw [fetchWords_inside m hin, hw, hrest, List.cons_append]⟩

/-- The well-formed instruction whose words stand at pc is the one decoded there. -/
theorem decodeAt_of_standsAtPc {s : State} {i : Instr} (hw : i.wellFormed s.params.memWords = true)
    (h : StandsAtPc i s) : decodeAt s = .ok i := by
  obtain ⟨rest, hrest⟩ := fetchWords_of_words (encode_length_le i) h
  rw [decodeAt, hrest, decodeEncodeRoundTrip _ i rest hw]

/-- Settles O10: the words at pc are decoded as O1 says. -/
theorem stepRunsTheInstructionAtPc : Obligations.StepRunsTheInstructionAtPc := by
  intro s i hq hr hw h
  have hd := decodeAt_of_standsAtPc hw h
  exact ⟨hd, step_of_decodeAt_ok hq hr hd⟩

end Sys2Proof.Machine
end

section
/-!
PROOFS. The state machine of 30_encoding.md R97: a state that meets the invariant always steps
(O55), the terminal states stay (O41), and a step changes the run state as the table says (O47).
What an instruction does to the run state is said by one lemma for each row of the table.
-/

namespace Sys2Proof.Machine

/-! ### Steps that always happen -/

/-- A block that waits at an `in` always takes its own step (43_io.md R221, R225). -/
theorem waitStep_next {s : State} {a : Operand} (h : decodeAt s = .ok (.inp a)) :
    ∃ t, waitStep s = .next t := by
  rw [waitStep, h]
  exact exec_next _ s

/-- A block in RUN always takes its own step (30_encoding.md R96). -/
theorem runStep_next (s : State) : ∃ t, runStep s = .next t := by
  rw [runStep]
  cases decodeAt s with
  | ok i => exact exec_next i s
  | error e => exact ⟨_, rfl⟩

/-- A block that waits only at an `in` always takes its own step. -/
theorem ownStep_next {s : State} (h : WaitsAtIn s) : ∃ t, ownStep s = .next t := by
  rw [ownStep]
  cases hr : s.run with
  | run => exact runStep_next s
  | waitIn =>
    obtain ⟨a, ha⟩ := h hr
    exact waitStep_next ha
  | idle | halted | faulted | loadFailed => exact ⟨s, rfl⟩

/-- Settles O55: of the events only the block's own step could fail, and it needs no more than that
the block waits at an `in`. -/
theorem invariantStatesAlwaysStep : Obligations.InvariantStatesAlwaysStep := by
  intro s h
  rw [step_eq]
  cases nextEvent s with
  | quiet => exact ownStep_next h.ticked.waits
  | reset | loadImage _ | offer _ => exact ⟨_, rfl⟩

/-! ### Where the block has no step of its own -/

/-- In IDLE and in the terminal states the block has no step of its own (R97, R101). -/
theorem ownStep_of_not_executing {s : State} (hr : s.run ≠ .run) (hw : s.run ≠ .waitIn) :
    ownStep s = .next s := by
  rw [ownStep]
  cases hs : s.run with
  | idle | halted | faulted | loadFailed => rfl
  | run => exact absurd hs hr
  | waitIn => exact absurd hs hw

/-- The terminal states are none of the other three (R101). -/
theorem RunState.ne_of_terminal {r : RunState} (h : r.terminal = true) :
    r ≠ .idle ∧ r ≠ .run ∧ r ≠ .waitIn := by
  cases r with
  | halted | faulted | loadFailed => exact ⟨nofun, nofun, nofun⟩
  | idle | run | waitIn => cases h

/-- Settles O41, by the event: none but Reset touches what is observed. -/
theorem terminalStatesStay : Obligations.TerminalStatesStay := by
  intro s h he
  obtain ⟨hidle, hrun, hwait⟩ := RunState.ne_of_terminal h
  rw [step_eq]
  cases hev : nextEvent s with
  | quiet => exact ⟨s.ticked, ownStep_of_not_executing hrun hwait, rfl, rfl⟩
  | reset => exact absurd hev he
  | loadImage bytes =>
    exact ⟨s.ticked, congrArg _ (loadImage_ignored (s := s.ticked) hidle), rfl, rfl⟩
  | offer v => exact ⟨offerInput s.ticked v, rfl, rfl, rfl⟩

/-! ### The run state after an instruction -/

/-- A destination write leaves the run state as it is. -/
theorem writeDest_run_eq {s u t : State} {a : Operand} {v : Word} (h : writeDest u a v = .ok t)
    (hu : u.run = s.run) : t.run = s.run := by
  obtain ⟨-, -, hrun, -⟩ := writeDest_keeps h
  exact hrun.trans hu

/-- An instruction that is no `halt`, `ret` or `in` leaves the run state as it is, when it
completes (R97). -/
theorem Effect.run_eq {i : Instr} {s t : State} (h : Effect i s t) (hhalt : i ≠ .halt)
    (hret : i ≠ .ret) (hin : ∀ a, i ≠ .inp a) : t.run = s.run := by
  cases i with
  | halt => exact absurd rfl hhalt
  | ret => exact absurd rfl hret
  | inp a => exact absurd rfl (hin a)
  | jmp _ | out _ | noop =>
    obtain rfl := h
    rfl
  | jt _ _ | jf _ _ =>
    rw [Effect, branch_eq] at h
    obtain rfl := h
    rfl
  | push _ | wmem _ _ | call _ =>
    obtain ⟨-, rfl⟩ := h
    rfl
  | set _ _ | eq _ _ _ | gt _ _ _ | add _ _ _ | mult _ _ _ | and _ _ _ | or _ _ _ | not _ _ =>
    exact writeDest_run_eq h rfl
  | rmem _ _ => exact writeDest_run_eq h.2 rfl
  | mod _ _ _ =>
    obtain ⟨_, -, hw⟩ := h
    exact writeDest_run_eq hw rfl
  | pop _ =>
    obtain ⟨_, _, -, hw⟩ := h
    exact writeDest_run_eq hw rfl

/-- Executed in RUN, an instruction that is no `halt`, `ret` or `in` goes on in RUN or faults. -/
theorem exec_run_or_faulted {i : Instr} {s t : State} (h : exec i s = .next t)
    (hr : s.run = .run) (hhalt : i ≠ .halt) (hret : i ≠ .ret) (hin : ∀ a, i ≠ .inp a) :
    t.run = .run ∨ t.run = .faulted := by
  rcases exec_cases h with heff | ⟨e, -, rfl⟩
  · exact .inl ((heff.run_eq hhalt hret hin).trans hr)
  · exact .inr rfl

/-- Executed in RUN, a `ret` stops the block on an empty stack, and goes on in RUN otherwise
(42_control.md R195). -/
theorem exec_ret_run {s t : State} (h : exec .ret s = .next t) (hr : s.run = .run) :
    if s.stack = [] then t.run = .halted ∧ t.haltReason = 1 else t.run = .run := by
  rw [exec, execRet] at h
  cases hs : s.stack with
  | nil =>
    rw [hs] at h
    obtain rfl := Host.Outcome.next.inj h
    exact ⟨rfl, rfl⟩
  | cons v rest =>
    rw [hs] at h
    obtain rfl := Host.Outcome.next.inj h
    exact hr

/-- An `in` reached in RUN begins to wait (43_io.md R221). -/
theorem exec_inp_begins {s : State} (a : Operand) (h : s.run ≠ .waitIn) :
    exec (.inp a) s = .next (s.setRun .waitIn) := by
  rw [exec, execIn, if_neg h]

/-- A waiting `in` with no word on offer waits on (R225). -/
theorem exec_inp_waits {s : State} (a : Operand) (h : s.run = .waitIn) (ho : s.offered = []) :
    exec (.inp a) s = .next s := by
  rw [exec, execIn, if_pos h, ho]

/-- A waiting `in` whose destination can be written takes the first word on offer (R221). -/
theorem exec_inp_takes {s t : State} {a : Operand} {v : Word} {rest : List Word}
    (h : s.run = .waitIn) (ho : s.offered = v :: rest)
    (ht : writeDest (inputTaken s v rest) a v = .ok t) : exec (.inp a) s = .next t := by
  simp only [exec, execIn, if_pos h, ho, ht, finish_ok]

/-- The run state after the step of a waiting block: decoding has checked the destination, so a
word on offer is taken without a fault (R95, R97). -/
theorem waitStep_run {s t : State} (hw : s.run = .waitIn) (h : waitStep s = .next t) :
    t.run = if s.offered = [] then .waitIn else .run := by
  rw [waitStep] at h
  split at h
  · rename_i a hd
    obtain ⟨-, hdest⟩ := decode_ok hd
    cases ho : s.offered with
    | nil =>
      rw [exec_inp_waits a hw ho, Host.Outcome.next.injEq] at h
      rw [← h, hw, if_pos rfl]
    | cons v rest =>
      obtain ⟨u, hu⟩ := writeDest_total (s := inputTaken s v rest) v hdest
      rw [exec_inp_takes hw ho hu, Host.Outcome.next.injEq] at h
      rw [← h, writeDest_run_eq (s := inputTaken s v rest) hu rfl, inputTaken_run,
        if_neg (List.cons_ne_nil v rest)]
  · cases h

/-- The run state after a LoadImage (20_memory.md R62, R63). -/
theorem loadImage_run (s : State) (bytes : List Byte) :
    (s.run = .idle → (loadImage s bytes).run = if bytes.length ≠ 0 ∧ bytes.length % 2 = 0 ∧
      bytes.length / 2 ≤ s.params.memWords then .run else .loadFailed) ∧
    (s.run ≠ .idle → (loadImage s bytes).run = s.run) := by
  refine ⟨fun hr => ?_, fun hr => by rw [loadImage_ignored hr]⟩
  by_cases hok : imageOk s.params bytes = true
  · rw [loadImage_accepted hr hok, if_pos ((imageOk_iff _ _).mp hok), loadSucceeds_run]
  · rw [loadImage_refused hr hok, if_neg fun h => hok ((imageOk_iff _ _).mpr h), loadRefused_run]

/-- Settles O47, by the event, the run state, and in RUN the instruction at pc. -/
theorem stateMachineTransitions : Obligations.StateMachineTransitions := by
  intro s t h
  cases he : nextEvent s with
  | reset =>
    rw [step_eq, he] at h
    rw [← Host.Outcome.next.inj h, hostReset_run]
  | loadImage bytes =>
    rw [step_eq, he] at h
    rw [← Host.Outcome.next.inj h]
    exact loadImage_run s.ticked bytes
  | offer v =>
    rw [step_eq, he] at h
    rw [← Host.Outcome.next.inj h, offerInput, State.setOffered_run, State.ticked_run]
  | quiet =>
    refine ⟨fun hr => ?_, fun hw => ?_, fun hr hw => ?_⟩
    · cases hd : decodeAt s with
      | error e =>
        rw [step_of_decodeAt_error he hr hd] at h
        rw [← Host.Outcome.next.inj h, takeFault_run]
      | ok i =>
        rw [step_of_decodeAt_ok he hr hd] at h
        cases i with
        | halt =>
          obtain rfl := Host.Outcome.next.inj h
          exact ⟨rfl, rfl⟩
        | ret => exact exec_ret_run (s := s.ticked) h hr
        | inp a =>
          have hne : s.ticked.run ≠ .waitIn := by simp [hr]
          rw [exec_inp_begins a hne] at h
          obtain rfl := Host.Outcome.next.inj h
          exact ⟨rfl, rfl⟩
        | _ => exact exec_run_or_faulted h hr nofun nofun nofun
    · exact waitStep_run (s := s.ticked) hw (step_waitIn he hw ▸ h)
    · rw [step_quiet he, ownStep_of_not_executing (s := s.ticked) hr hw] at h
      rw [← Host.Outcome.next.inj h, State.ticked_run]

end Sys2Proof.Machine
end

section
/-!
PROOFS. Data movement: set, push, pop, rmem and wmem (O11 to O15), and the words of the spec's
examples (O3). What an instruction does under each condition is one equation on `exec`; that it
then faults precisely, or writes its destination, or changes the stack and pc, and nothing else,
is said once for all of them.
-/

namespace Sys2Proof.Machine

/-! ### The words of the spec's examples -/

/-- Settles O3: nine of the word lists are encodings, which O1 decodes; the first word after the
opcode of the tenth is no operand, and the last begins with no opcode. -/
theorem specExampleWordsDecode : Obligations.SpecExampleWordsDecode := by
  have decodes := decodeEncodeRoundTrip 32768
  exact ⟨decodes (.set (.reg 1) (.lit 65)) [] rfl, decodes (.wmem (.reg 0) (.reg 1)) [] rfl,
    decodes (.add (.reg 0) (.lit 32767) (.lit 5)) [] rfl,
    decodes (.not (.reg 0) (.lit 21845)) [] rfl, decodes (.jt (.reg 0) (.lit 20)) [] rfl,
    decodes (.call (.lit 30)) [] rfl, decodes (.out (.reg 0)) [] rfl,
    decodes (.inp (.reg 3)) [] rfl, decodes (.set (.reg 7) (.lit 9)) [0] rfl, rfl,
    decode_invalidOpcode [] (by decide)⟩

/-! ### How an instruction ends -/

/-- An instruction that takes a fault in the state before it faults precisely
(60_exceptions.md R242). -/
theorem faultsWith_of_exec {i : Instr} {s : State} {kind : FaultKind} {info : Word}
    (h : exec i s = .next (takeFault s ⟨kind, info⟩)) :
    ∃ t, exec i s = .next t ∧ FaultsWith kind info s t :=
  ⟨_, h, takeFault_faultsWith s ⟨kind, info⟩⟩

/-- An instruction that replaces the stack and sets pc changes nothing else. -/
theorem onlyStackAndPc_setStack_setPc (s : State) (st : List Word) (target : Word) :
    OnlyStackAndPc st target s ((s.setStack st).setPc target) :=
  ⟨rfl, rfl, fun _ => rfl, fun _ => rfl, ⟨rfl, rfl, rfl, rfl, rfl⟩, ⟨rfl, rfl, rfl⟩,
    ⟨rfl, rfl, rfl⟩⟩

/-- An instruction of `n` words at pc in `s` that ends with the write of `v` to a destination that
decoding accepts completes, and does nothing else (R85, R95, R125). -/
theorem finish_writeDest_writesDest (r : State) {s : State} {a : Operand} (v : Word) (n : Nat)
    (hm : Memory.wf s.mem = true) (ha : a.destOk s.params.memWords = true) :
    ∃ t, finish r (writeDest (s.advance n) a v) = .next t ∧ WritesDest a v n s t := by
  obtain ⟨t, ht⟩ := writeDest_total (s := s.advance n) v ha
  obtain ⟨hvalue, hpc, honly, hstack, hstatus, hstreams, houtside⟩ :=
    writeDest_effect (s := s.advance n) hm ht
  exact ⟨t, by rw [ht, finish_ok], hvalue, hpc, { honly with }, hstack, { hstatus with },
    { hstreams with }, { houtside with }⟩

/-- Settles O11: a set is nothing but the write of its destination. -/
theorem setCopiesTheValue : Obligations.SetCopiesTheValue :=
  fun s _ b hm ha => ⟨rfl, finish_writeDest_writesDest s (valueOf s b) 3 hm ha⟩

/-! ### push -/

/-- A push with room completes with the value on top (40_data_movement.md R121). -/
theorem exec_push_room {s : State} (a : Operand) (h : s.params.stackCapacity ≠ some s.sp) :
    exec (.push a) s = .next ((s.advance 2).setStack (valueOf s a :: s.stack)) := by
  rw [exec, execPush, push_room (s := s.advance 2) _ h, finish_ok, State.advance_stack]

/-- A push at full depth faults (R33, R121). -/
theorem exec_push_full {s : State} (a : Operand) (h : s.params.stackCapacity = some s.sp) :
    exec (.push a) s = .next (takeFault s ⟨.stackOverflow, 0⟩) := by
  rw [exec, execPush, push_full (s := s.advance 2) _ h, finish_error]

/-- The cell above the old stack holds the word put on top of it (10_state.md R32, R33). -/
theorem State.cell_sp_of_stack_cons {s t : State} {v : Word} (h : t.stack = v :: s.stack) :
    t.cell s.sp = some v := by
  simp [State.cell, State.sp, h]

/-- Settles O12, by the room on the stack. -/
theorem pushPutsTheValueOnTop : Obligations.PushPutsTheValueOnTop := by
  refine fun s a => ⟨rfl, fun hroom => ?_, fun hfull =>
    faultsWith_of_exec (exec_push_full a hfull)⟩
  exact ⟨_, exec_push_room a hroom, onlyStackAndPc_setStack_setPc s _ _, rfl,
    State.cell_sp_of_stack_cons rfl⟩

/-! ### pop -/

/-- A pop from a non-empty stack goes on with the write of the top (R122). -/
theorem exec_pop_cons {s : State} (a : Operand) {v : Word} {rest : List Word}
    (h : s.stack = v :: rest) :
    exec (.pop a) s = finish s (writeDest ((s.setStack rest).advance 2) a v) := by
  have hp : pop (s.advance 2) = .ok (v, (s.setStack rest).advance 2) := by
    rw [pop, State.advance_stack, h]
    rfl
  rw [exec, execPop, hp]

/-- A pop from an empty stack faults (R33, R122). -/
theorem exec_pop_nil {s : State} (a : Operand) (h : s.stack = []) :
    exec (.pop a) s = .next (takeFault s ⟨.stackUnderflow, 0⟩) := by
  have hp : pop (s.advance 2) = .error ⟨.stackUnderflow, 0⟩ := by
    rw [pop, State.advance_stack, h]
  simp only [exec, execPop, hp, finish_error]

/-- Settles O13, by the stack: on a non-empty one the destination is written in the state that has
the rest of it. -/
theorem popTakesTheTop : Obligations.PopTakesTheTop := by
  refine fun s a => ⟨rfl, fun v rest hs hm ha => ?_, fun hs =>
    faultsWith_of_exec (exec_pop_nil a hs)⟩
  obtain ⟨t, ht, hw⟩ := finish_writeDest_writesDest s (s := s.setStack rest) v 2 hm ha
  have hsp : t.sp + 1 = s.sp := by
    rw [State.sp, State.sp, hw.stack, hs, State.setStack_stack, List.length_cons]
  exact ⟨t, (exec_pop_cons a hs).trans ht, hw, hsp⟩

/-! ### rmem and wmem -/

/-- An rmem inside memory goes on with the write of the word read before it (R100, R123). -/
theorem exec_rmem_inside {s : State} (a : Operand) {b : Operand}
    (h : (valueOf s b).toNat < s.params.memWords) :
    exec (.rmem a b) s =
      finish s (writeDest (s.advance 3) a (s.word (valueOf s b).toNat)) := by
  rw [exec, execRmem, memRead_inside h]

/-- An rmem outside memory faults with the address (R54, R123). -/
theorem exec_rmem_outside {s : State} (a : Operand) {b : Operand}
    (h : s.params.memWords ≤ (valueOf s b).toNat) :
    exec (.rmem a b) s = .next (takeFault s ⟨.addressOutOfRange, valueOf s b⟩) := by
  simp only [exec, execRmem, memRead_outside h, finish_error]

/-- Settles O14, by the address: inside memory or not. -/
theorem rmemLoadsAWord : Obligations.RmemLoadsAWord := by
  refine fun s a b => ⟨rfl, fun hin hm ha => ?_, fun hout =>
    faultsWith_of_exec (exec_rmem_outside a hout)⟩
  rw [exec_rmem_inside a hin]
  exact finish_writeDest_writesDest s _ 3 hm ha

/-- A wmem outside memory faults with the address (R55, R124). -/
theorem exec_wmem_outside {s : State} {a : Operand} (b : Operand)
    (h : s.params.memWords ≤ (valueOf s a).toNat) :
    exec (.wmem a b) s = .next (takeFault s ⟨.addressOutOfRange, valueOf s a⟩) := by
  rw [exec, execWmem, memWrite_outside (s := s.advance 3) _ h, finish_error]

/-- Settles O15, by the address: inside memory the stored word reads back and no other changes. -/
theorem wmemStoresAWord : Obligations.WmemStoresAWord := by
  refine fun s a b => ⟨rfl, fun hin hm => ?_, fun hout =>
    faultsWith_of_exec (exec_wmem_outside b hout)⟩
  exact ⟨_, exec_wmem_inside hin, State.putWord_word_self (s := s.advance 3) _ _ hm,
    fun _ hx => State.putWord_word_of_ne (s.advance 3) _ hx, rfl, fun _ => rfl, rfl,
    ⟨rfl, rfl, rfl, rfl, rfl⟩, ⟨rfl, rfl, rfl⟩, ⟨rfl, rfl, rfl⟩⟩

end Sys2Proof.Machine
end

section
/-!
PROOFS. The ALU: eq, gt, add, mult, mod, and, or and not (O16 to O25). For each result there is a
lemma that says which word it is, and one that says when it lies below 32768; every instruction is
then the write of its result, which `finish_writeDest_writesDest` describes.
-/

namespace Sys2Proof.Machine

/-! ### Which word each result is -/

/-- The word of a decided condition (41_alu.md R150, R151). -/
theorem conditionWord_decide (p : Prop) [Decidable p] :
    conditionWord (decide p) = if p then 1 else 0 := by
  by_cases h : p <;> simp [conditionWord, h]

/-- The sum is reduced once, after it is taken exactly (R152, R159). -/
theorem aluAdd_toNat (b c : Word) : (aluAdd b c).toNat = (b.toNat + c.toNat) % 32768 := by
  rw [aluAdd, BitVec.toNat_ofNat]
  omega

/-- The product is reduced once, after it is taken exactly (R153, R159). -/
theorem aluMult_toNat (b c : Word) : (aluMult b c).toNat = (b.toNat * c.toNat) % 32768 := by
  rw [aluMult, BitVec.toNat_ofNat]
  omega

/-- By a divisor other than 0 the result is the unsigned remainder (R154, R164). -/
theorem aluMod_of_ne_zero (b : Word) {c : Word} (h : c ≠ 0) : aluMod b c = .ok (b % c) := by
  rw [aluMod, if_neg h, ← BitVec.toNat_umod, BitVec.ofNat_toNat, BitVec.setWidth_eq]

/-- A divisor of 0 raises DivideByZero (R154). -/
theorem aluMod_zero (b : Word) : aluMod b 0 = .error ⟨.divideByZero, 0⟩ := rfl

/-- `not` complements the low 15 bits and clears bit 15 (R157, R161). -/
theorem aluNot_getLsbD (b : Word) (k : Nat) :
    (aluNot b).getLsbD k = (decide (k < 15) && !b.getLsbD k) := by
  have hmask : 0x7FFF#16 = (BitVec.allOnes 15).setWidth 16 := rfl
  rw [aluNot, hmask, BitVec.getLsbD_and, BitVec.getLsbD_not, BitVec.getLsbD_setWidth,
    BitVec.getLsbD_allOnes]
  by_cases hk : k < 15
  · simp [hk, Nat.lt_trans hk (by decide : 15 < 16)]
  · simp [hk]

/-! ### Which results lie below 32768 (R162) -/

/-- A condition's word is 0 or 1. -/
theorem conditionWord_narrow (p : Bool) : (conditionWord p).toNat < 32768 := by
  cases p <;> decide

/-- A reduced sum is small whatever the operands. -/
theorem aluAdd_narrow (b c : Word) : (aluAdd b c).toNat < 32768 := by
  rw [aluAdd_toNat]
  omega

/-- So is a reduced product. -/
theorem aluMult_narrow (b c : Word) : (aluMult b c).toNat < 32768 := by
  rw [aluMult_toNat]
  omega

/-- A remainder is at most the dividend. -/
theorem aluMod_narrow {b c r : Word} (hb : b.toNat < 32768) (h : aluMod b c = .ok r) :
    r.toNat < 32768 := by
  by_cases hc : c = 0
  · rw [hc, aluMod_zero] at h
    cases h
  · rw [aluMod_of_ne_zero b hc, Except.ok.injEq] at h
    rw [← h, BitVec.toNat_umod]
    exact (Nat.mod_le _ _).trans_lt hb

/-- `and` sets no bit that the first operand lacks. -/
theorem aluAnd_narrow {b : Word} (c : Word) (hb : b.toNat < 32768) :
    (aluAnd b c).toNat < 32768 := by
  rw [aluAnd, BitVec.toNat_and]
  exact Nat.and_le_left.trans_lt hb

/-- `or` sets no bit that neither operand has. -/
theorem aluOr_narrow {b c : Word} (hb : b.toNat < 32768) (hc : c.toNat < 32768) :
    (aluOr b c).toNat < 32768 := by
  rw [aluOr, BitVec.toNat_or]
  exact Nat.or_lt_two_pow (n := 15) hb hc

/-- `not` clears bit 15 (R161). -/
theorem aluNot_narrow (b : Word) : (aluNot b).toNat < 32768 := by
  rw [aluNot, BitVec.toNat_and]
  exact Nat.lt_succ_of_le Nat.and_le_right

/-- On a 15-bit word `not` undoes itself: bit 15 was clear, and every other bit is complemented
twice. -/
theorem aluNot_aluNot {b : Word} (hb : b.toNat < 32768) : aluNot (aluNot b) = b := by
  refine BitVec.eq_of_getLsbD_eq fun k _ => ?_
  rw [aluNot_getLsbD, aluNot_getLsbD]
  by_cases hk : k < 15
  · simp [hk]
  · have hpow : 2 ^ 15 ≤ 2 ^ k := Nat.pow_le_pow_right Nat.two_pos (Nat.not_lt.mp hk)
    have hclear : b.getLsbD k = false := Nat.testBit_lt_two_pow (hb.trans_le hpow)
    simp [hk, hclear]

/-! ### The write of a result -/

/-- A result that has the property `P` is what the destination holds after its write. -/
theorem finish_writeDest_result {P : Word → Prop} {s : State} {a : Operand} {v : Word} (n : Nat)
    (hm : Memory.wf s.mem = true) (ha : a.destOk s.params.memWords = true) (hv : P v) :
    ∃ t r, finish s (writeDest (s.advance n) a v) = .next t ∧ WritesDest a r n s t ∧ P r :=
  have ⟨t, ht, hw⟩ := finish_writeDest_writesDest s v n hm ha
  ⟨t, v, ht, hw, hv⟩

/-- Settles O16. -/
theorem eqWritesOneOrZero : Obligations.EqWritesOneOrZero := by
  refine fun s a b c hm ha => ⟨rfl, ?_⟩
  rw [← conditionWord_decide]
  exact finish_writeDest_writesDest s (aluEq (valueOf s b) (valueOf s c)) 4 hm ha

/-- Settles O17. -/
theorem gtComparesUnsigned : Obligations.GtComparesUnsigned := by
  refine fun s a b c hm ha => ⟨rfl, ?_⟩
  rw [← conditionWord_decide]
  exact finish_writeDest_writesDest s (aluGt (valueOf s b) (valueOf s c)) 4 hm ha

/-- Settles O18. -/
theorem addWritesTheReducedSum : Obligations.AddWritesTheReducedSum :=
  fun _ _ _ _ hm ha => ⟨rfl, finish_writeDest_result 4 hm ha (aluAdd_toNat _ _)⟩

/-- Settles O19. -/
theorem multWritesTheReducedProduct : Obligations.MultWritesTheReducedProduct :=
  fun _ _ _ _ hm ha => ⟨rfl, finish_writeDest_result 4 hm ha (aluMult_toNat _ _)⟩

/-- Settles O21. -/
theorem andWritesTheConjunction : Obligations.AndWritesTheConjunction :=
  fun _ _ _ _ hm ha => ⟨rfl, finish_writeDest_result 4 hm ha fun _ => BitVec.getLsbD_and⟩

/-- Settles O22. -/
theorem orWritesTheDisjunction : Obligations.OrWritesTheDisjunction :=
  fun _ _ _ _ hm ha => ⟨rfl, finish_writeDest_result 4 hm ha fun _ => BitVec.getLsbD_or⟩

/-- Settles O23. -/
theorem notWritesTheComplement : Obligations.NotWritesTheComplement := by
  refine fun s a b hm ha => ⟨rfl, finish_writeDest_result 3 hm ha ⟨fun k hk => ?_, ?_⟩⟩
  · rw [aluNot_getLsbD, decide_eq_true hk, Bool.true_and]
  · exact aluNot_getLsbD _ 15

/-! ### mod -/

/-- By a divisor other than 0 a mod goes on with the write of the remainder (R154). -/
theorem exec_mod_of_ne_zero {s : State} (a b : Operand) {c : Operand} (h : valueOf s c ≠ 0) :
    exec (.mod a b c) s = finish s (writeDest (s.advance 4) a (valueOf s b % valueOf s c)) := by
  rw [exec, execMod, aluMod_of_ne_zero _ h]
  rfl

/-- A mod by 0 faults (R154). -/
theorem exec_mod_zero {s : State} (a b : Operand) {c : Operand} (h : valueOf s c = 0) :
    exec (.mod a b c) s = .next (takeFault s ⟨.divideByZero, 0⟩) := by
  rw [exec, execMod, h, aluMod_zero]
  rfl

/-- Settles O20, by the divisor: 0 or not. -/
theorem modWritesTheRemainder : Obligations.ModWritesTheRemainder := by
  refine fun s a b c => ⟨rfl, fun hc hm ha => ?_, fun hc =>
    faultsWith_of_exec (exec_mod_zero a b hc)⟩
  obtain ⟨t, ht, hw⟩ := finish_writeDest_writesDest s (valueOf s b % valueOf s c) 4 hm ha
  have hpos : 0 < (valueOf s c).toNat := Nat.pos_of_ne_zero fun h => hc (BitVec.eq_of_toNat_eq h)
  refine ⟨t, _, (valueOf s b).toNat / (valueOf s c).toNat, (exec_mod_of_ne_zero a b hc).trans ht,
    hw, ?_, ?_⟩
  · rw [BitVec.toNat_umod]
    exact Nat.mod_lt _ hpos
  · rw [BitVec.toNat_umod, Nat.div_add_mod']

/-! ### Values below 32768 -/

/-- An instruction that leaves the block in RUN has its effect: it took no fault (R242). -/
theorem effect_of_exec_run {i : Instr} {s t : State} (h : exec i s = .next t)
    (ht : t.run = .run) : Effect i s t := by
  rcases exec_cases h with h | ⟨e, -, rfl⟩
  · exact h
  · cases ht

/-- A destination holds a value below 32768 once one is written to it (R85). -/
theorem writeDest_narrow {s t : State} {a : Operand} {v : Word} (hm : Memory.wf s.mem = true)
    (h : writeDest s a v = .ok t) (hv : v.toNat < 32768) : (destWord t a).toNat < 32768 := by
  obtain ⟨hvalue, -⟩ := writeDest_effect hm h
  rwa [hvalue]

/-- Settles O24: each instruction wrote its result, which is below 32768. -/
theorem aluKeepsValuesNarrow : Obligations.AluKeepsValuesNarrow := by
  intro s t a b c hm _ ht hb hc
  have narrow {n : Nat} {v : Word} (h : writeDest (s.advance n) a v = .ok t) :
      v.toNat < 32768 → (destWord t a).toNat < 32768 := writeDest_narrow (s := s.advance n) hm h
  have effect {i : Instr} (h : exec i s = .next t) : Effect i s t := effect_of_exec_run h ht
  simp only [List.forall_mem_cons, List.not_mem_nil, false_implies, implies_true, and_true]
  refine ⟨⟨fun h => ?eq, fun h => ?gt, fun h => ?add, fun h => ?mult, fun h => ?mod,
    fun h => ?and, fun h => ?or⟩, fun h => ?not⟩
  case eq => exact narrow (effect h) (conditionWord_narrow _)
  case gt => exact narrow (effect h) (conditionWord_narrow _)
  case add => exact narrow (effect h) (aluAdd_narrow _ _)
  case mult => exact narrow (effect h) (aluMult_narrow _ _)
  case mod =>
    obtain ⟨r, hr, hw⟩ := effect h
    exact narrow hw (aluMod_narrow hb hr)
  case and => exact narrow (effect h) (aluAnd_narrow _ hb)
  case or => exact narrow (effect h) (aluOr_narrow hb hc)
  case not => exact narrow (effect h) (aluNot_narrow _)

/-! ### not of not -/

/-- A not into a register leaves the complement there (R157). -/
theorem exec_not_reg {s t : State} {r : Reg} {b : Operand}
    (h : exec (.not (.reg r) b) s = .next t) : t.reg r = aluNot (valueOf s b) := by
  obtain rfl := Host.Outcome.next.inj h
  exact State.setReg_reg_self _ _ _

/-- Settles O25: the second not reads what the first one wrote. -/
theorem notTwiceGivesTheValueBack : Obligations.NotTwiceGivesTheValueBack := by
  intro s t u b r q hb hst htu
  calc u.reg q
    _ = aluNot (t.reg r) := exec_not_reg htu
    _ = aluNot (aluNot (valueOf s b)) := by rw [exec_not_reg hst]
    _ = valueOf s b := aluNot_aluNot hb

end Sys2Proof.Machine
end

section
/-!
PROOFS. Control transfer: halt, jmp, jt, jf, call, ret and noop (O26 to O32), a call that comes back
(O33), and a jump to itself (O59). What an instruction does under each condition is one equation on
`exec`; that setting pc, or stopping, changes nothing else is said once. A self-jump hangs because
`AtSelfJump` holds after whatever the host does in a step.
-/

namespace Sys2Proof.Machine

/-! ### How a transfer ends -/

/-- Setting pc changes nothing else. -/
theorem onlyPc_setPc (s : State) (target : Word) : OnlyPc target s (s.setPc target) :=
  ⟨rfl, fun _ => rfl, fun _ => rfl, rfl, ⟨rfl, rfl, rfl, rfl, rfl⟩, ⟨rfl, rfl, rfl⟩,
    ⟨rfl, rfl, rfl⟩⟩

/-- A normal stop past a one-word instruction changes the run state, halt_reason and pc alone
(60_exceptions.md R248). -/
theorem haltsWith_enterHalted (s : State) (reason : BitVec 1) :
    HaltsWith reason s ((s.advance 1).enterHalted reason) :=
  ⟨rfl, rfl, rfl, fun _ => rfl, fun _ => rfl, rfl, rfl, rfl, rfl, ⟨rfl, rfl, rfl⟩,
    ⟨rfl, rfl, rfl⟩⟩

/-! ### halt, jmp, jt, jf and noop -/

/-- Settles O26. -/
theorem haltStopsTheBlock : Obligations.HaltStopsTheBlock :=
  fun s => ⟨rfl, _, rfl, haltsWith_enterHalted s 0⟩

/-- Settles O27. -/
theorem jmpGoesToTheValue : Obligations.JmpGoesToTheValue :=
  fun s a => ⟨rfl, _, rfl, onlyPc_setPc s (valueOf s a)⟩

/-- Settles O32. -/
theorem noopOnlyMovesPc : Obligations.NoopOnlyMovesPc :=
  fun s => ⟨rfl, _, rfl, onlyPc_setPc s (s.pc + 1)⟩

/-- A value holds exactly when it is not 0 (10_state.md R31). -/
theorem holds_iff (v : Word) : holds v = true ↔ v ≠ 0 := decide_eq_true_iff

/-- A jt sets pc to its target when the tested value is not 0, and past itself otherwise
(42_control.md R192). -/
theorem exec_jt (s : State) (a b : Operand) :
    exec (.jt a b) s = .next (s.setPc (if valueOf s a ≠ 0 then valueOf s b else s.pc + 3)) := by
  simp only [exec, execJt, branch_eq, holds_iff]

/-- A jf sets pc to its target when the tested value is 0, and past itself otherwise (R193). -/
theorem exec_jf (s : State) (a b : Operand) :
    exec (.jf a b) s = .next (s.setPc (if valueOf s a = 0 then valueOf s b else s.pc + 3)) := by
  simp only [exec, execJf, branch_eq, Bool.not_eq_true', ← Bool.not_eq_true, holds_iff, not_not]

/-- Settles O28. -/
theorem jtJumpsWhenNonZero : Obligations.JtJumpsWhenNonZero :=
  fun s a b => ⟨rfl, _, exec_jt s a b, onlyPc_setPc s _⟩

/-- Settles O29; which of the two jumps is taken depends on the tested value. -/
theorem jfJumpsWhenZero : Obligations.JfJumpsWhenZero := by
  refine fun s a b => ⟨rfl, _, _, exec_jf s a b, exec_jt s a b, onlyPc_setPc s _, ?_⟩
  rw [State.setPc_pc, State.setPc_pc]
  by_cases h : valueOf s a = 0
  · exact .inl ⟨if_pos h, if_neg (not_not.mpr h)⟩
  · exact .inr ⟨if_neg h, if_pos h⟩

/-! ### call and ret -/

/-- A call with room pushes the return address and goes to the value of its operand (R194). -/
theorem exec_call_room {s : State} (a : Operand) (h : s.params.stackCapacity ≠ some s.sp) :
    exec (.call a) s = .next ((s.setStack ((s.pc + 2) :: s.stack)).setPc (valueOf s a)) := by
  simp only [exec, execCall, push_room _ h, finish_ok]
  rfl

/-- A call at full depth faults (10_state.md R33, 42_control.md R194). -/
theorem exec_call_full {s : State} (a : Operand) (h : s.params.stackCapacity = some s.sp) :
    exec (.call a) s = .next (takeFault s ⟨.stackOverflow, 0⟩) := by
  simp only [exec, execCall, push_full _ h, finish_error]

/-- Settles O30, by the room on the stack. -/
theorem callPushesTheReturnAddress : Obligations.CallPushesTheReturnAddress := by
  refine fun s a => ⟨rfl, fun hroom => ?_, fun hfull =>
    faultsWith_of_exec (exec_call_full a hfull)⟩
  exact ⟨_, exec_call_room a hroom, onlyStackAndPc_setStack_setPc s _ _, rfl,
    State.cell_sp_of_stack_cons rfl⟩

/-- A ret on a non-empty stack pops pc (R195). -/
theorem exec_ret_cons {s : State} {v : Word} {rest : List Word} (h : s.stack = v :: rest) :
    exec .ret s = .next ((s.setStack rest).setPc v) := by
  rw [exec, execRet, h]

/-- A ret on an empty stack is a normal stop (R195). -/
theorem exec_ret_nil {s : State} (h : s.stack = []) :
    exec .ret s = .next ((s.advance 1).enterHalted 1) := by
  rw [exec, execRet, h]

/-- Settles O31, by the stack: empty or not. -/
theorem retPopsPcOrHalts : Obligations.RetPopsPcOrHalts := by
  refine fun s => ⟨rfl, fun v rest hs => ?_, fun hs =>
    ⟨_, exec_ret_nil hs, haltsWith_enterHalted s 1⟩⟩
  have hsp : rest.length + 1 = s.sp := by rw [State.sp, hs, List.length_cons]
  exact ⟨_, exec_ret_cons hs, onlyStackAndPc_setStack_setPc s rest v, hsp⟩

/-! ### A call that comes back -/

/-- With no event left on the schedule, a step in RUN executes the instruction at pc (30_encoding.md
R96). -/
theorem step_of_schedule_nil {s : State} {i : Instr} (hr : s.run = .run) (hs : s.schedule = [])
    (hw : i.wellFormed s.params.memWords = true) (h : StandsAtPc i s) : step s = exec i s := by
  have hquiet : HostQuiet s := by rw [HostQuiet, nextEvent, hs, List.headD_nil]
  have htick : s.ticked = s := by
    rw [State.ticked, State.setSchedule, hs, List.tail_nil, ← hs]
  rw [step_of_decodeAt_ok hquiet hr (decodeAt_of_standsAtPc hw h), htick]

/-- A word 18 inside memory at pc is a ret (R88). -/
theorem standsAtPc_ret {s : State} (hin : s.pc.toNat < s.params.memWords)
    (hw : s.word s.pc.toNat = 18) : StandsAtPc .ret s := by
  intro j hj
  obtain rfl : j = 0 := Nat.lt_one_iff.mp hj
  exact ⟨hin, hw⟩

/-- With no event left on the schedule, a step at a ret goes back to the word on top of the stack
(42_control.md R195). -/
theorem step_ret_cons {s : State} {v : Word} {rest : List Word} (hr : s.run = .run)
    (hs : s.schedule = []) (hin : s.pc.toNat < s.params.memWords)
    (hw : s.word s.pc.toNat = 18) (hst : s.stack = v :: rest) :
    step s = .next ((s.setStack rest).setPc v) :=
  (step_of_schedule_nil hr hs rfl (standsAtPc_ret hin hw)).trans (exec_ret_cons hst)

/-- Settles O33: the ret pops the return address that the call pushed, and so undoes the push. -/
theorem callThenRetReturns : Obligations.CallThenRetReturns := by
  intro s a hr hs hroom hcall hin hret
  have hstep : step s = .next ((s.setStack ((s.pc + 2) :: s.stack)).setPc (valueOf s a)) :=
    (step_of_schedule_nil hr hs rfl hcall).trans (exec_call_room a hroom)
  exact ⟨_, _, hstep, step_ret_cons hr hs hin hret rfl, onlyPc_setPc s (s.pc + 2)⟩

/-! ### A jump to itself -/

/-- The block runs at a `jmp a` whose target is its own address, and no Reset is to come. -/
structure AtSelfJump (a : Operand) (s : State) : Prop where
  run : s.run = .run
  decoded : decodeAt s = .ok (.jmp a)
  target : valueOf s a = s.pc
  noReset : ∀ e ∈ s.schedule, e ≠ .reset

/-- The value of an operand depends on the registers alone (30_encoding.md R84). -/
theorem valueOf_congr {s t : State} (h : t.regs = s.regs) (o : Operand) :
    valueOf t o = valueOf s o := by
  cases o with
  | lit v => rfl
  | reg r => rw [valueOf, valueOf, State.reg, State.reg, h]

/-- With no Reset on the schedule the coming event is none (00_scope.md R13). -/
theorem nextEvent_ne_reset {s : State} (h : ∀ e ∈ s.schedule, e ≠ .reset) :
    nextEvent s ≠ .reset := by
  rw [nextEvent]
  cases hs : s.schedule with
  | nil => exact nofun
  | cons e rest => exact h e (hs ▸ List.mem_cons_self)

/-- What takes the event off the schedule, and keeps what is decoded and run, stays at the
self-jump. -/
theorem AtSelfJump.of_same {a : Operand} {s t : State} (h : AtSelfJump a s)
    (hrun : t.run = s.run) (hparams : t.params = s.params) (hregs : t.regs = s.regs)
    (hpc : t.pc = s.pc) (hmem : SameMemory s t) (hsched : t.schedule = s.schedule.tail) :
    AtSelfJump a t where
  run := hrun.trans h.run
  decoded := (decodeAt_congr hparams hpc hmem).trans h.decoded
  target := by rw [valueOf_congr hregs, hpc, h.target]
  noReset := fun e he => h.noReset e (List.mem_of_mem_tail (hsched ▸ he))

/-- A step at a self-jump stays there, whatever the host does in it (42_control.md R191,
70_reset_and_hazards.md R279). -/
theorem AtSelfJump.stays {a : Operand} {s : State} (h : AtSelfJump a s) :
    ∃ t, step s = .next t ∧ AtSelfJump a t := by
  cases he : nextEvent s with
  | quiet =>
    have hpc : valueOf s.ticked a = s.pc := (valueOf_ticked s a).trans h.target
    exact ⟨_, step_of_decodeAt_ok he h.run h.decoded,
      h.of_same rfl rfl rfl hpc (fun _ => rfl) rfl⟩
  | reset => exact absurd he (nextEvent_ne_reset h.noReset)
  | loadImage bytes =>
    have hne : s.ticked.run ≠ .idle := by simp [h.run]
    refine ⟨s.ticked, ?_, h.of_same rfl rfl rfl rfl (fun _ => rfl) rfl⟩
    rw [step_eq, he, eventStep, loadImage_ignored hne]
  | offer v =>
    refine ⟨offerInput s.ticked v, ?_, h.of_same rfl rfl rfl rfl (fun _ => rfl) rfl⟩
    rw [step_eq, he, eventStep]

/-- Settles O59: `AtSelfJump` holds at the start, and every step keeps it. -/
theorem selfJumpHangs : Obligations.SelfJumpHangs := by
  intro s a hr hjmp htarget hsched
  have hstart : AtSelfJump a s := ⟨hr, decodeAt_of_standsAtPc rfl hjmp, htarget, hsched⟩
  exact staysIn_of_inv (AtSelfJump a) (fun _ h => h.run)
    (fun _ h => ⟨nextEvent_ne_reset h.noReset, h.stays⟩) hstart

end Sys2Proof.Machine
end

section
/-!
PROOFS. Input and output (43_io.md): what `out` and `in` do (O34, O35, O36), who sends and who takes
a word (O37, O38), what the block does not see of its channels (O49, O50), and when it waits for
ever (O58). That the instructions other than `out` and `in` neither read nor change the channels is
said once, in `exec_mapChannels`: with any other words on them they do the same. O37, O38, O49 and
O50 all rest on it.
-/

namespace Sys2Proof.Machine

/-! ### out and in -/

/-- Settles O34. -/
theorem outSendsTheWord : Obligations.OutSendsTheWord :=
  fun _ _ => ⟨rfl, _, rfl, rfl, rfl, fun _ => rfl, fun _ => rfl, rfl, ⟨rfl, rfl, rfl, rfl, rfl⟩,
    rfl, rfl, ⟨rfl, rfl, rfl⟩⟩

/-- A waiting `in` with a word on offer goes on with the write of the first (R221). -/
theorem exec_inp_offered {s : State} (a : Operand) {v : Word} {rest : List Word}
    (hr : s.run = .waitIn) (ho : s.offered = v :: rest) :
    exec (.inp a) s = finish s (writeDest (inputTaken s v rest) a v) := by
  simp only [exec, execIn, if_pos hr, ho]

/-- If decoding accepts its destination, that word is written, and nothing else done (R221). -/
theorem exec_inp_writesDest {s : State} {a : Operand} {v : Word} {rest : List Word}
    (hr : s.run = .waitIn) (ho : s.offered = v :: rest) (hm : Memory.wf s.mem = true)
    (ha : a.destOk s.params.memWords = true) :
    ∃ t, exec (.inp a) s = .next t ∧
      WritesDest a v 2 ((s.setRun .run).takeOffer v rest) t := by
  rw [exec_inp_offered a hr ho]
  exact finish_writeDest_writesDest s (s := (s.setRun .run).takeOffer v rest) v 2 hm ha

/-- Settles O35, by the run state, which tells the two halves of `in` apart. -/
theorem inWaitsThenTakesTheWord : Obligations.InWaitsThenTakesTheWord := by
  refine fun s a => ⟨rfl, fun hr => ?_, fun v rest hr ho hm ha =>
    exec_inp_writesDest hr ho hm ha⟩
  exact ⟨_, exec_inp_begins a (by simp [hr]), rfl, rfl, fun _ => rfl, fun _ => rfl, rfl, rfl, rfl,
    rfl, rfl, ⟨rfl, rfl, rfl⟩, ⟨rfl, rfl, rfl⟩⟩

/-- With the host quiet, a step in WAIT_IN executes the waiting `in` (R221). -/
theorem step_of_decodeAt_inp {s : State} {a : Operand} (hq : HostQuiet s) (hr : s.run = .waitIn)
    (hd : decodeAt s = .ok (.inp a)) : step s = exec (.inp a) s.ticked := by
  rw [step_waitIn hq hr, waitStep, decodeAt_ticked, hd]

/-- Settles O36, by what is on offer. -/
theorem waitingBlockTakesOneWordOrWaits : Obligations.WaitingBlockTakesOneWordOrWaits := by
  intro s a hr hq hin hw hm
  rw [step_of_decodeAt_inp hq hr (decodeAt_of_standsAtPc hw hin)]
  exact ⟨fun v rest ho => exec_inp_writesDest (s := s.ticked) hr ho hm hw,
    fun ho => exec_inp_waits (s := s.ticked) a hr ho⟩

/-! ### Other words on the channels -/

/-- The words on the block's two channels: sent before this run and in it, taken in it, and on
offer (R222, R223). -/
structure Channels where
  sentBefore : List Word
  outputs : List Word
  taken : List Word
  offered : List Word

/-- The words on the channels of `s`. -/
def State.channels (s : State) : Channels := ⟨s.sentBefore, s.outputs, s.taken, s.offered⟩

/-- `s` with its channels changed by `g`. -/
def State.mapChannels (g : Channels → Channels) (s : State) : State :=
  { s with
    sentBefore := (g s.channels).sentBefore
    outputs := (g s.channels).outputs
    taken := (g s.channels).taken
    offered := (g s.channels).offered }

section
variable (g : Channels → Channels)

/-- The parameters are no part of the channels. -/
@[simp] theorem mapChannels_params (s : State) : (s.mapChannels g).params = s.params := rfl

/-- Decoding does not read the channels. -/
@[simp] theorem decodeAt_mapChannels (s : State) : decodeAt (s.mapChannels g) = decodeAt s :=
  decodeAt_congr rfl rfl fun _ => rfl

/-- A memory write is the same write with other words on the channels. -/
theorem memWrite_mapChannels (s : State) (addr v : Word) :
    memWrite (s.mapChannels g) addr v = (memWrite s addr v).map (State.mapChannels g) := by
  rw [memWrite, memWrite, mapChannels_params]
  split <;> rfl

/-- So is a destination write. -/
theorem writeDest_mapChannels (s : State) (a : Operand) (v : Word) :
    writeDest (s.mapChannels g) a v = (writeDest s a v).map (State.mapChannels g) := by
  cases a with
  | reg r => rfl
  | lit d => exact memWrite_mapChannels g s _ v

/-- And so is the end of an instruction. -/
theorem finish_mapChannels {s t : State} {r : Except Raised State} (h : finish s r = .next t) :
    finish (s.mapChannels g) (r.map (State.mapChannels g)) = .next (t.mapChannels g) := by
  rcases finish_cases h with rfl | ⟨e, rfl, rfl⟩ <;> rfl

/-- An instruction whose equation in `s` and with other words on the channels answers states that
differ in those words alone does the same with them. -/
theorem exec_mapChannels_of_next {i : Instr} {s t u : State} (h : exec i s = .next t)
    (hs : exec i s = .next u) (hg : exec i (s.mapChannels g) = .next (u.mapChannels g)) :
    exec i (s.mapChannels g) = .next (t.mapChannels g) := by
  rw [h, Host.Outcome.next.injEq] at hs
  rw [hg, hs]

/-- So does one whose equation in both is the same destination write. -/
theorem exec_mapChannels_of_writeDest {i : Instr} {s t u : State} {a : Operand} {v : Word}
    (h : exec i s = .next t) (hs : exec i s = finish s (writeDest u a v))
    (hg : exec i (s.mapChannels g) =
      finish (s.mapChannels g) (writeDest (u.mapChannels g) a v)) :
    exec i (s.mapChannels g) = .next (t.mapChannels g) := by
  rw [hg, writeDest_mapChannels]
  exact finish_mapChannels g (hs ▸ h)

/-- AN INSTRUCTION OTHER THAN `out` AND `in` NEITHER READS NOR CHANGES THE CHANNELS: with any other
words on them it does the same. In each case its equation is cited twice, for `s` and for `s` with
those words. -/
theorem exec_mapChannels {i : Instr} {s t : State} (hout : ∀ a, i ≠ .out a)
    (hin : ∀ a, i ≠ .inp a) (h : exec i s = .next t) :
    exec i (s.mapChannels g) = .next (t.mapChannels g) := by
  cases i with
  | out a => exact absurd rfl (hout a)
  | inp a => exact absurd rfl (hin a)
  | halt | noop | jmp _ => exact exec_mapChannels_of_next g h rfl rfl
  | jt a b => exact exec_mapChannels_of_next g h (exec_jt s a b) (exec_jt _ a b)
  | jf a b => exact exec_mapChannels_of_next g h (exec_jf s a b) (exec_jf _ a b)
  | set _ _ | eq _ _ _ | gt _ _ _ | add _ _ _ | mult _ _ _ | and _ _ _ | or _ _ _ | not _ _ =>
    exact exec_mapChannels_of_writeDest g h rfl rfl
  | push a =>
    by_cases hc : s.params.stackCapacity = some s.sp
    · exact exec_mapChannels_of_next g h (exec_push_full a hc) (exec_push_full a hc)
    · exact exec_mapChannels_of_next g h (exec_push_room a hc) (exec_push_room a hc)
  | call a =>
    by_cases hc : s.params.stackCapacity = some s.sp
    · exact exec_mapChannels_of_next g h (exec_call_full a hc) (exec_call_full a hc)
    · exact exec_mapChannels_of_next g h (exec_call_room a hc) (exec_call_room a hc)
  | pop a =>
    cases hs : s.stack with
    | nil => exact exec_mapChannels_of_next g h (exec_pop_nil a hs) (exec_pop_nil a hs)
    | cons v rest =>
      exact exec_mapChannels_of_writeDest g h (exec_pop_cons a hs) (exec_pop_cons a hs)
  | ret =>
    cases hs : s.stack with
    | nil => exact exec_mapChannels_of_next g h (exec_ret_nil hs) (exec_ret_nil hs)
    | cons v rest => exact exec_mapChannels_of_next g h (exec_ret_cons hs) (exec_ret_cons hs)
  | mod a b c =>
    by_cases hc : valueOf s c = 0
    · exact exec_mapChannels_of_next g h (exec_mod_zero a b hc) (exec_mod_zero a b hc)
    · exact exec_mapChannels_of_writeDest g h (exec_mod_of_ne_zero a b hc)
        (exec_mod_of_ne_zero a b hc)
  | rmem a b =>
    by_cases hm : (valueOf s b).toNat < s.params.memWords
    · exact exec_mapChannels_of_writeDest g h (exec_rmem_inside a hm) (exec_rmem_inside a hm)
    · have hm := Nat.not_lt.mp hm
      exact exec_mapChannels_of_next g h (exec_rmem_outside a hm) (exec_rmem_outside a hm)
  | wmem a b =>
    by_cases hm : (valueOf s a).toNat < s.params.memWords
    · exact exec_mapChannels_of_next g h (exec_wmem_inside hm) (exec_wmem_inside hm)
    · have hm := Nat.not_lt.mp hm
      exact exec_mapChannels_of_next g h (exec_wmem_outside b hm) (exec_wmem_outside b hm)

end

/-! ### Who sends and who takes a word -/

/-- `s` with other words sent. -/
def State.withSent (s : State) (before sent : List Word) : State :=
  s.mapChannels fun c => { c with sentBefore := before, outputs := sent }

/-- `s` with other words taken and on offer. -/
def State.withInput (s : State) (taken offered : List Word) : State :=
  s.mapChannels fun c => { c with taken := taken, offered := offered }

/-- An instruction other than `out` does the same whatever words have been sent; an `in` reads and
changes the other half of the channels. -/
theorem exec_withSent {i : Instr} {s t : State} (before sent : List Word)
    (hout : ∀ a, i ≠ .out a) (h : exec i s = .next t) :
    exec i (s.withSent before sent) = .next (t.withSent before sent) := by
  cases i with
  | inp a =>
    by_cases hr : s.run = .waitIn
    · cases ho : s.offered with
      | nil => exact exec_mapChannels_of_next _ h (exec_inp_waits a hr ho) (exec_inp_waits a hr ho)
      | cons v rest =>
        exact exec_mapChannels_of_writeDest _ h (exec_inp_offered a hr ho)
          (exec_inp_offered a hr ho)
    · exact exec_mapChannels_of_next _ h (exec_inp_begins a hr) (exec_inp_begins a hr)
  | _ => exact exec_mapChannels _ hout nofun h

/-- An instruction does the same whatever words have been taken or are on offer, unless the block
waits; an `out` changes the other half of the channels. -/
theorem exec_withInput {i : Instr} {s t : State} (taken offered : List Word)
    (hr : s.run ≠ .waitIn) (h : exec i s = .next t) :
    exec i (s.withInput taken offered) = .next (t.withInput taken offered) := by
  cases i with
  | inp a => exact exec_mapChannels_of_next _ h (exec_inp_begins a hr) (exec_inp_begins a hr)
  | out a => exact exec_mapChannels_of_next _ h rfl rfl
  | _ => exact exec_mapChannels _ nofun nofun h

/-- So an instruction other than `out` leaves the words sent as they are (R222): it does the same
when they are replaced by themselves. -/
theorem exec_sent_eq {i : Instr} {s t : State} (hout : ∀ a, i ≠ .out a)
    (h : exec i s = .next t) : t.outputs = s.outputs ∧ t.sentBefore = s.sentBefore := by
  have hself : exec i s = .next (t.withSent s.sentBefore s.outputs) :=
    exec_withSent s.sentBefore s.outputs hout h
  rw [h, Host.Outcome.next.injEq] at hself
  rw [hself]
  exact ⟨rfl, rfl⟩

/-- And an instruction leaves the words on offer, and those taken, as they are, unless the block
waits (R223). -/
theorem exec_input_eq {i : Instr} {s t : State} (hr : s.run ≠ .waitIn) (h : exec i s = .next t) :
    t.offered = s.offered ∧ t.taken = s.taken := by
  have hself : exec i s = .next (t.withInput s.taken s.offered) :=
    exec_withInput s.taken s.offered hr h
  rw [h, Host.Outcome.next.injEq] at hself
  rw [hself]
  exact ⟨rfl, rfl⟩

/-- A waiting `in` takes nothing, or the first word on offer, and goes on in RUN (R221, R225). -/
theorem exec_inp_input {s t : State} {a : Operand} (hr : s.run = .waitIn)
    (h : exec (.inp a) s = .next t) :
    (t.offered = s.offered ∧ t.taken = s.taken) ∨
      (t.run = .run ∧ ∃ v, s.offered = v :: t.offered ∧ t.taken = s.taken ++ [v]) := by
  rcases exec_cases h with (⟨hne, -⟩ | ⟨-, -, rfl⟩ | ⟨v, rest, -, ho, hw⟩) | ⟨e, -, rfl⟩
  · exact absurd hr hne
  · exact .inl ⟨rfl, rfl⟩
  · obtain ⟨-, -, hrun, -, -, -, -, ⟨-, htaken, hoffered⟩, -⟩ := writeDest_keeps hw
    exact .inr ⟨hrun, v, hoffered ▸ ho, htaken⟩
  · exact .inl ⟨rfl, rfl⟩

/-- A LoadImage leaves the words on offer as they are (R226). -/
@[simp] theorem loadImage_offered (s : State) (bytes : List Byte) :
    (loadImage s bytes).offered = s.offered := by
  rcases loadImage_cases s bytes with ⟨-, -, h⟩ | ⟨-, -, h⟩ | ⟨-, h⟩ <;> rw [h]
  · exact loadSucceeds_offered s bytes
  · exact loadRefused_offered s

/-- Settles O37, by the cases of a step. -/
theorem onlyOutSendsWords : Obligations.OnlyOutSendsWords := by
  intro s t h
  rcases step_cases h with ⟨he, rfl⟩ | ⟨bytes, he, rfl⟩ | ⟨v, -, rfl⟩ | ⟨-, -, -, rfl⟩ |
    ⟨-, -, e, -, rfl⟩ | ⟨hq, hr, i, hd, hx⟩ | ⟨-, -, a, -, hx⟩
  · exact .inr (.inl ⟨rfl, rfl, .inl he⟩)
  · rcases loadImage_cases s.ticked bytes with ⟨hr, -, ht⟩ | ⟨-, -, ht⟩ | ⟨-, ht⟩
    · refine .inr (.inl ⟨?_, ?_, .inr ⟨bytes, he, hr, h, ?_⟩⟩) <;> rw [ht] <;> rfl
    · rw [ht]
      exact .inl ⟨rfl, rfl⟩
    · rw [ht]
      exact .inl ⟨rfl, rfl⟩
  · exact .inl ⟨rfl, rfl⟩
  · exact .inl ⟨rfl, rfl⟩
  · exact .inl ⟨rfl, rfl⟩
  · by_cases hout : ∃ a, i = .out a
    · obtain ⟨a, rfl⟩ := hout
      obtain rfl := Host.Outcome.next.inj hx
      exact .inr (.inr ⟨a, hr, hq, hd, by simp, rfl⟩)
    · exact .inl (exec_sent_eq (s := s.ticked) (not_exists.mp hout) hx)
  · exact .inl (exec_sent_eq (i := .inp a) (s := s.ticked) nofun hx)

/-- Settles O38, by the cases of a step. -/
theorem inputIsTakenOnlyWhileWaiting : Obligations.InputIsTakenOnlyWhileWaiting := by
  intro s t h
  rcases step_cases h with ⟨he, rfl⟩ | ⟨bytes, he, rfl⟩ | ⟨v, he, rfl⟩ | ⟨hq, -, -, rfl⟩ |
    ⟨hq, -, e, -, rfl⟩ | ⟨hq, hr, i, -, hx⟩ | ⟨hq, hw, a, -, hx⟩
  · rw [he]
    rfl
  · rw [he]
    exact loadImage_offered s.ticked bytes
  · rw [he]
    exact ⟨rfl, rfl, rfl, rfl, rfl, rfl⟩
  · rw [show nextEvent s = .quiet from hq]
    exact .inl ⟨rfl, rfl⟩
  · rw [show nextEvent s = .quiet from hq]
    exact .inl ⟨rfl, rfl⟩
  · rw [show nextEvent s = .quiet from hq]
    exact .inl (exec_input_eq (s := s.ticked) (by simp [hr]) hx)
  · rw [show nextEvent s = .quiet from hq]
    exact (exec_inp_input (s := s.ticked) hw hx).imp_right fun htakes => ⟨hw, htakes⟩

/-! ### What the block does not see -/

/-- `r` answers the state `t` but for the words sent, and what `t` appended to those of `s` is
appended to `before` and `others` (R222). -/
def AppendsTheSame (before others : List Word) (s t : State)
    (r : Host.Outcome State Fault Refusal) : Prop :=
  ∃ new u, t.allSent = s.allSent ++ new ∧ r = .next u ∧ u.allSent = before ++ others ++ new ∧
    u = t.withSent u.sentBefore u.outputs

/-- So it is where nothing is sent. -/
theorem AppendsTheSame.of_withSent {before others : List Word} {s t : State}
    {r : Host.Outcome State Fault Refusal} (ht : t.allSent = s.allSent)
    (hr : r = .next (t.withSent before others)) : AppendsTheSame before others s t r :=
  ⟨[], _, by rw [ht, List.append_nil], hr, (List.append_nil _).symm, rfl⟩

/-- And where all that was sent is put behind the present run. -/
theorem AppendsTheSame.of_allSent {before others : List Word} {s t : State}
    {r : Host.Outcome State Fault Refusal} (ht : t.sentBefore = s.allSent) (ho : t.outputs = [])
    (hr : r = .next (t.withSent (before ++ others) [])) : AppendsTheSame before others s t r :=
  ⟨[], _, by rw [State.allSent, ht, ho], hr, rfl, rfl⟩

/-- An instruction does not read the words sent: `out` appends its word to any, and no other
instruction touches them. -/
theorem exec_appendsTheSame {i : Instr} {s t : State} (before others : List Word)
    (h : exec i s = .next t) :
    AppendsTheSame before others s t (exec i (s.withSent before others)) := by
  by_cases hout : ∃ a, i = .out a
  · obtain ⟨a, rfl⟩ := hout
    obtain rfl := Host.Outcome.next.inj h
    exact ⟨[valueOf s a], _, (List.append_assoc _ _ _).symm, rfl, (List.append_assoc _ _ _).symm,
      rfl⟩
  · have hout := not_exists.mp hout
    obtain ⟨houtputs, hbefore⟩ := exec_sent_eq hout h
    exact .of_withSent (by rw [State.allSent, houtputs, hbefore, State.allSent])
      (exec_withSent before others hout h)

/-- Nor does a LoadImage. -/
theorem loadImage_appendsTheSame (before others : List Word) (s : State) (bytes : List Byte) :
    AppendsTheSame before others s (loadImage s bytes)
      (.next (loadImage (s.withSent before others) bytes)) := by
  rcases loadImage_cases s bytes with ⟨hr, hok, h⟩ | ⟨hr, hno, h⟩ | ⟨hr, h⟩ <;> rw [h]
  · exact .of_allSent rfl rfl (congrArg _ (loadImage_accepted hr hok))
  · exact .of_withSent rfl (congrArg _ (loadImage_refused hr hno))
  · exact .of_withSent rfl (congrArg _ (loadImage_ignored hr))

/-- A step with other words sent is the same event, on the state with those words. -/
theorem step_withSent (s : State) (before others : List Word) :
    step (s.withSent before others) = eventStep (nextEvent s) (s.ticked.withSent before others) :=
  rfl

/-- Settles O49, by the cases of a step. -/
theorem sentWordsAreNeverRead : Obligations.SentWordsAreNeverRead := by
  intro s t before others h
  change AppendsTheSame before others s.ticked t (step (s.withSent before others))
  have hd : decodeAt (s.withSent before others) = decodeAt s := decodeAt_mapChannels _ s
  rcases step_cases h with ⟨he, rfl⟩ | ⟨bytes, he, rfl⟩ | ⟨v, he, rfl⟩ | ⟨hq, hr, hw, rfl⟩ |
    ⟨hq, hr, e, he, rfl⟩ | ⟨hq, hr, i, hi, hx⟩ | ⟨hq, hw, a, ha, hx⟩
  · rw [step_withSent, he]
    exact .of_allSent rfl rfl rfl
  · rw [step_withSent, he]
    exact loadImage_appendsTheSame before others s.ticked bytes
  · rw [step_withSent, he]
    exact .of_withSent rfl rfl
  · rw [step_withSent, show nextEvent s = .quiet from hq]
    exact .of_withSent rfl (ownStep_of_not_executing hr hw)
  · exact .of_withSent rfl (step_of_decodeAt_error hq hr (hd.trans he))
  · rw [step_of_decodeAt_ok (s := s.withSent before others) hq hr (hd.trans hi)]
    exact exec_appendsTheSame before others hx
  · rw [step_of_decodeAt_inp (s := s.withSent before others) hq hw (hd.trans ha)]
    exact exec_appendsTheSame before others hx

/-- Settles O50: in RUN an instruction does the same whatever is on offer, and a failed decode takes
the same fault. -/
theorem offersAreUnseenInRun : Obligations.OffersAreUnseenInRun := by
  intro s t others hr hq h
  change step (s.withInput s.taken others) = _
  have hd : decodeAt (s.withInput s.taken others) = decodeAt s := decodeAt_mapChannels _ s
  cases hs : decodeAt s with
  | error e =>
    rw [step_of_decodeAt_error hq hr hs] at h
    obtain rfl := Host.Outcome.next.inj h
    exact step_of_decodeAt_error hq hr (hd.trans hs)
  | ok i =>
    have hr' : s.ticked.run ≠ .waitIn := by simp [hr]
    rw [step_of_decodeAt_ok hq hr hs] at h
    obtain ⟨-, htaken⟩ := exec_input_eq hr' h
    calc step (s.withInput s.taken others)
      _ = exec i (s.ticked.withInput s.taken others) := step_of_decodeAt_ok hq hr (hd.trans hs)
      _ = .next (t.withInput s.taken others) := exec_withInput s.taken others hr' h
      _ = .next { t with offered := others } := by
        rw [State.withInput, ← State.ticked_taken, ← htaken]
        rfl

/-! ### A block that waits for ever -/

/-- A LoadImage leaves the host's plans as they are. -/
@[simp] theorem loadImage_schedule (s : State) (bytes : List Byte) :
    (loadImage s bytes).schedule = s.schedule := by
  rcases loadImage_cases s bytes with ⟨-, -, h⟩ | ⟨-, -, h⟩ | ⟨-, h⟩ <;> rw [h]
  · exact loadSucceeds_schedule s bytes
  · exact loadRefused_schedule s

/-- An instruction leaves the host's plans as they are. -/
theorem exec_schedule {i : Instr} {s t : State} (h : exec i s = .next t) :
    t.schedule = s.schedule := by
  rcases exec_cases h with heff | ⟨e, -, rfl⟩
  · exact heff.frame.outside.schedule
  · exact takeFault_schedule s e

/-- A step takes one event off the host's schedule (00_scope.md R13). -/
theorem step_schedule {s t : State} (h : step s = .next t) : t.schedule = s.schedule.tail := by
  rcases step_cases h with ⟨-, rfl⟩ | ⟨bytes, -, rfl⟩ | ⟨v, -, rfl⟩ | ⟨-, -, -, rfl⟩ |
    ⟨-, -, e, -, rfl⟩ | ⟨-, -, i, -, hx⟩ | ⟨-, -, a, -, hx⟩
  · rfl
  · exact loadImage_schedule s.ticked bytes
  · rfl
  · rfl
  · rfl
  · exact exec_schedule hx
  · exact exec_schedule hx

/-- A block that takes its own step in WAIT_IN and waits on has no word on offer (R221, R225). -/
theorem offered_eq_nil_of_waits_on {s t : State} (hq : HostQuiet s) (hr : s.run = .waitIn)
    (h : step s = .next t) (ht : t.run = .waitIn) : s.offered = [] := by
  have hrun := waitStep_run (s := s.ticked) hr (step_waitIn hq hr ▸ h)
  by_contra hne
  rw [ht, State.ticked_offered, if_neg hne] at hrun
  cases hrun

/-- The host will neither offer a word nor assert Reset. -/
def NothingToCome (es : List HostEvent) : Prop := ∀ e ∈ es, e ≠ .reset ∧ ∀ v, e ≠ .offer v

/-- Nor will it in the coming step. -/
theorem NothingToCome.nextEvent {s : State} (h : NothingToCome s.schedule) :
    nextEvent s ≠ .reset ∧ ∀ v, nextEvent s ≠ .offer v := by
  rw [Machine.nextEvent]
  cases hs : s.schedule with
  | nil => exact ⟨nofun, nofun⟩
  | cons e rest => exact h e (hs ▸ List.mem_cons_self)

/-- A block that waits for ever has no word on offer and none to come, nor a Reset: the schedule is
finite, a word offered stays on offer, and the block takes one when the host is quiet (R225). -/
theorem StaysIn.dry {s : State} (h : StaysIn .waitIn s) :
    s.offered = [] ∧ NothingToCome s.schedule := by
  induction hs : s.schedule generalizing s with
  | nil =>
    obtain ⟨hr, -, u, hu, hstay⟩ := staysIn_step h
    obtain ⟨hru, -⟩ := staysIn_step hstay
    have hq : HostQuiet s := by rw [HostQuiet, nextEvent, hs, List.headD_nil]
    exact ⟨offered_eq_nil_of_waits_on hq hr hu hru, nofun⟩
  | cons e rest ih =>
    obtain ⟨hr, hne, u, hu, hstay⟩ := staysIn_step h
    obtain ⟨hdry, hrest⟩ := ih hstay (by rw [step_schedule hu, hs, List.tail_cons])
    have he : nextEvent s = e := by rw [nextEvent, hs, List.headD_cons]
    have hinput := inputIsTakenOnlyWhileWaiting s u hu
    rw [he] at hinput hne
    have hno : ∀ v, e ≠ .offer v := by
      rintro v rfl
      obtain ⟨hoffered, -⟩ := hinput
      simp [hdry] at hoffered
    have hoffered : s.offered = [] := by
      cases e with
      | quiet =>
        obtain ⟨hru, -⟩ := staysIn_step hstay
        exact offered_eq_nil_of_waits_on he hr hu hru
      | loadImage bytes => exact hinput.symm.trans hdry
      | reset => exact absurd rfl hne
      | offer v => exact absurd rfl (hno v)
    exact ⟨hoffered, List.forall_mem_cons.mpr ⟨⟨hne, hno⟩, hrest⟩⟩

/-- The block waits at an `in`, with no word on offer and none to come, nor a Reset. -/
structure WaitsDry (s : State) : Prop where
  run : s.run = .waitIn
  waits : ∃ a, decodeAt s = .ok (.inp a)
  offered : s.offered = []
  nothing : NothingToCome s.schedule

/-- Such a block waits on through a step, whether the host is quiet or delivers an image, which it
ignores (R225, 20_memory.md R62). -/
theorem WaitsDry.step_eq_ticked {s : State} (h : WaitsDry s) : step s = .next s.ticked := by
  obtain ⟨a, ha⟩ := h.waits
  obtain ⟨hreset, hoffer⟩ := h.nothing.nextEvent
  cases he : nextEvent s with
  | quiet =>
    rw [step_of_decodeAt_inp he h.run ha]
    exact exec_inp_waits (s := s.ticked) a h.run h.offered
  | loadImage bytes =>
    have hne : s.ticked.run ≠ .idle := by simp [h.run]
    rw [step_eq, he, eventStep, loadImage_ignored hne]
  | reset => exact absurd he hreset
  | offer v => exact absurd he (hoffer v)

/-- And is again such a block. -/
theorem WaitsDry.ticked {s : State} (h : WaitsDry s) : WaitsDry s.ticked where
  run := h.run
  waits := by
    rw [decodeAt_ticked]
    exact h.waits
  offered := h.offered
  nothing := fun e he => h.nothing e (List.mem_of_mem_tail he)

/-- Settles O58: a block that waits for ever is dry, and a dry one, which by the invariant waits at
an `in`, stays `WaitsDry` (the schedule and the queue of offers are the model's form of the host,
log entries 5 and 18). -/
theorem waitsForeverWhenNoWordComes : Obligations.WaitsForeverWhenNoWordComes := by
  intro s hinv
  constructor
  · intro h
    obtain ⟨hr, -⟩ := staysIn_step h
    exact ⟨hr, h.dry⟩
  · rintro ⟨hr, hoffered, hnothing⟩
    have hdry : WaitsDry s := ⟨hr, hinv.waits hr, hoffered, hnothing⟩
    exact staysIn_of_inv WaitsDry (fun _ h => h.run)
      (fun _ h => ⟨h.nothing.nextEvent.1, _, h.step_eq_ticked, h.ticked⟩) hdry

end Sys2Proof.Machine
end

section
/-!
PROOFS. How a run ends: whatever faults, the fault is precise (O42), only the instructions named in
60_exceptions.md R241 fault at execution (O43), and only `halt` and a `ret` on an empty stack stop
the block normally (O48). Since an instruction that completes in RUN does not lead to FAULTED, and
one that faults does not lead to HALTED, the run state after an instruction tells which of the two
it did.
-/

namespace Sys2Proof.Machine

/-! ### Faults -/

/-- An instruction that leads from RUN to FAULTED has taken a fault it can raise, in the state
before it (R242). -/
theorem execFault_of_exec_faulted {i : Instr} {s t : State} (h : exec i s = .next t)
    (hr : s.run = .run) (ht : t.run = .faulted) : ∃ e, ExecFault i s e ∧ t = takeFault s e := by
  rcases exec_cases h with heff | hfault
  · obtain ⟨-, hne, -⟩ := heff.run_ne (.inl hr)
    exact absurd ht hne
  · exact hfault

/-- Settles O42: a step in RUN takes the fault of a failed check of decoding or of the instruction
at pc, and neither is LoadError. -/
theorem faultsArePrecise : Obligations.FaultsArePrecise := by
  intro s t hr hq h ht
  cases hd : decodeAt s with
  | error e =>
    rw [step_of_decodeAt_error hq hr hd] at h
    obtain rfl := Host.Outcome.next.inj h
    exact ⟨_, _, decodeFault_kind_ne s.pc e, takeFault_faultsWith s.ticked _⟩
  | ok i =>
    rw [step_of_decodeAt_ok hq hr hd] at h
    obtain ⟨e, hfault, rfl⟩ := execFault_of_exec_faulted (s := s.ticked) h hr ht
    exact ⟨_, _, hfault.kind_ne, takeFault_faultsWith s.ticked e⟩

/-- Well-formedness is the check of 30_encoding.md R95 on the destination operand. -/
theorem destOk_of_wellFormed {memWords : Nat} {i : Instr} {a : Operand}
    (hw : i.wellFormed memWords = true) (hi : destOf i = some a) : a.destOk memWords = true := by
  cases i with
  | set _ _ | pop _ | eq _ _ _ | gt _ _ _ | add _ _ _ | mult _ _ _ | mod _ _ _ | and _ _ _
  | or _ _ _ | not _ _ | rmem _ _ | inp _ =>
    obtain rfl := Option.some.inj hi
    exact hw
  | halt | push _ | jmp _ | jt _ _ | jf _ _ | wmem _ _ | call _ | ret | out _ | noop => cases hi

/-- Settles O43: well-formedness excludes a literal destination outside memory, and each of the
other faults an instruction can raise is a case of the statement. -/
theorem onlyNamedInstructionsFault : Obligations.OnlyNamedInstructionsFault := by
  intro i s t hw hr h ht
  obtain ⟨e, hfault, rfl⟩ := execFault_of_exec_faulted h hr ht
  have hprecise := takeFault_faultsWith s e
  rcases hfault with ⟨d, hi, hd, -⟩ | ⟨a, hi, hs, rfl⟩ | ⟨a, b, c, hi, hc, rfl⟩ |
    ⟨a, b, hi, hout, rfl⟩ | ⟨a, b, hi, hout, rfl⟩ | ⟨a, hi, hfull, rfl⟩
  · have hin : d.toNat < s.params.memWords := of_decide_eq_true (destOk_of_wellFormed hw hi)
    exact absurd hd (Nat.not_le.mpr hin)
  · exact .inl ⟨a, hi, hs, hprecise⟩
  · exact .inr (.inl ⟨a, b, c, hi, hc, hprecise⟩)
  · exact .inr (.inr (.inl ⟨a, b, hi, hout, hprecise⟩))
  · exact .inr (.inr (.inr (.inl ⟨a, b, hi, hout, hprecise⟩)))
  · exact .inr (.inr (.inr (.inr ⟨a, hi, hfull, hprecise⟩)))

/-! ### Normal stops -/

/-- An instruction that does not lead to FAULTED has completed (R242). -/
theorem effect_of_exec_not_faulted {i : Instr} {s t : State} (h : exec i s = .next t)
    (ht : t.run ≠ .faulted) : Effect i s t := by
  rcases exec_cases h with heff | ⟨e, -, rfl⟩
  · exact heff
  · exact absurd (takeFault_run s e) ht

/-- Of the completed instructions only a `halt` and a `ret` on an empty stack enter HALTED, each
with its halt_reason (60_exceptions.md R248). -/
theorem Effect.halted {i : Instr} {s t : State} (h : Effect i s t) (hs : s.run ≠ .halted)
    (ht : t.run = .halted) :
    (i = .halt ∧ t.haltReason = 0) ∨ (i = .ret ∧ s.stack = [] ∧ t.haltReason = 1) := by
  cases i with
  | halt =>
    obtain rfl := h
    exact .inl ⟨rfl, rfl⟩
  | ret =>
    rcases h with ⟨hstack, rfl⟩ | ⟨v, rest, -, rfl⟩
    · exact .inr ⟨rfl, hstack, rfl⟩
    · exact absurd ht hs
  | inp a =>
    rcases h with ⟨-, rfl⟩ | ⟨-, -, rfl⟩ | ⟨v, rest, -, -, hw⟩
    · cases ht
    · exact absurd ht hs
    · cases (writeDest_run_eq (s := inputTaken s v rest) hw rfl).symm.trans ht
  | _ => exact absurd ((h.run_eq nofun nofun nofun).symm.trans ht) hs

/-- No LoadImage enters HALTED (20_memory.md R62, R63). -/
theorem loadImage_run_ne_halted {s : State} (bytes : List Byte) (hs : s.run ≠ .halted) :
    (loadImage s bytes).run ≠ .halted := by
  rcases loadImage_cases s bytes with ⟨-, -, h⟩ | ⟨-, -, h⟩ | ⟨-, h⟩ <;> rw [h]
  · simp
  · simp
  · exact hs

/-- Settles O48, by the cases of a step: only an executed instruction enters HALTED, and the
waiting `in` is not one that does. -/
theorem onlyHaltAndEmptyRetHalt : Obligations.OnlyHaltAndEmptyRetHalt := by
  intro s t h hs ht
  have hne : t.run ≠ .faulted := by simp [ht]
  rcases step_cases h with ⟨-, rfl⟩ | ⟨bytes, -, rfl⟩ | ⟨v, -, rfl⟩ | ⟨-, -, -, rfl⟩ |
    ⟨-, -, e, -, rfl⟩ | ⟨hq, hr, i, hd, hx⟩ | ⟨-, -, a, -, hx⟩
  · cases ht
  · exact absurd ht (loadImage_run_ne_halted (s := s.ticked) bytes hs)
  · exact absurd ht hs
  · exact absurd ht hs
  · cases ht
  · have heff := effect_of_exec_not_faulted hx hne
    refine ⟨hr, hq, heff.frame.faultCode, ?_⟩
    rcases heff.halted hs ht with ⟨rfl, hreason⟩ | ⟨rfl, hstack, hreason⟩
    · exact .inl ⟨hd, hreason⟩
    · exact .inr ⟨hd, hstack, hreason⟩
  · rcases (effect_of_exec_not_faulted hx hne).halted hs ht with ⟨hi, -⟩ | ⟨hi, -⟩ <;> cases hi

end Sys2Proof.Machine
end

section
/-!
PROOFS. Reset (O39, O54) and the ends of runs (O57, O60), 70_reset_and_hazards.md R270 and R280.
A run that has ended is observed the same ever after. That the input words a run took fix its
observation goes by a simulation: whatever the host of a run does, the block goes through the same
states as with a host that offers the very words the run takes, all at the start, and is quiet
from then on. Two runs of one image that take the same words are so compared with one and the same
run.
-/

namespace Sys2Proof.Machine

/-! ### Reset -/

/-- Settles O39: the coming event is the Reset, and R270's values are those of `hostReset`. -/
theorem resetFromAnyState : Obligations.ResetFromAnyState := by
  intro s rest hsched
  have he : nextEvent s = .reset := by rw [nextEvent, hsched, List.headD_cons]
  have hrest : s.ticked.schedule = rest := by rw [State.ticked_schedule, hsched, List.tail_cons]
  refine ⟨hostReset s.ticked, by rw [step_eq, he, eventStep], State.reg_of_zero rfl, rfl, rfl, rfl,
    rfl, rfl, rfl, rfl, rfl, ?_, rfl, rfl, hrest⟩
  exact List.append_nil s.allSent

/-- Settles O54, field by field. -/
theorem resetMeetsTheInvariant : Obligations.ResetMeetsTheInvariant where
  params := by decide
  memory := hostReset_memoryOk State.reset
  stack := fun c _ => Nat.zero_le c
  status := .of_clear_record nofun nofun (fun _ => rfl) ⟨rfl, rfl, rfl⟩
  waits := nofun
  unloaded := fun _ => ⟨State.reg_of_zero rfl, rfl, rfl, rfl, rfl⟩

/-! ### A run that has ended -/

/-- The two run states in which a run has ended (R280). -/
theorem State.ended_iff (s : State) : s.ended = true ↔ s.run = .halted ∨ s.run = .faulted := by
  rw [State.ended, Bool.or_eq_true, decide_eq_true_iff, decide_eq_true_iff]

/-- The status read tells the run states apart (10_state.md R37). -/
theorem RunState.code_injective : Function.Injective RunState.code := by
  intro r r'
  cases r <;> cases r' <;> decide

/-- What is observed includes the run state. -/
theorem run_eq_of_observe_eq {s t : State} (h : observe t = observe s) : t.run = s.run :=
  RunState.code_injective (congrArg (fun o : Observation => o.status.state) h)

/-- A run that has ended is observed the same ever after (30_encoding.md R101). -/
theorem observe_of_ended {n : Nat} {s t : State} (he : s.ended = true) (h : Within n s t) :
    observe t = observe s := by
  induction n generalizing s with
  | zero => rw [show t = s from h]
  | succ n ih =>
    obtain ⟨hreset, u, hu, h⟩ := h
    have hterminal : s.run.terminal = true := by
      rcases s.ended_iff.mp he with hr | hr <;> rw [hr] <;> rfl
    obtain ⟨v, hv, hobserve, -⟩ := terminalStatesStay s hterminal hreset
    obtain rfl : u = v := Host.Outcome.next.inj (hu.symm.trans hv)
    have heu : u.ended = true := by
      rwa [State.ended_iff, run_eq_of_observe_eq hobserve, ← State.ended_iff]
    exact (ih heu h).trans hobserve

/-- So later states of a run are observed as the one it has ended in. -/
theorem observe_of_ended_of_le {m n : Nat} {s t u : State} (ht : Within m s t)
    (he : t.ended = true) (hu : Within n s u) (hmn : m ≤ n) : observe u = observe t := by
  obtain ⟨k, rfl⟩ := Nat.exists_eq_add_of_le hmn
  obtain ⟨t', ht', hu⟩ := within_add.mp hu
  obtain rfl := within_unique ht ht'
  exact observe_of_ended he hu

/-- A run that from some state on stays in a run state in which no run has ended does not end: it
would still be there after it. -/
theorem not_endsWith_of_staysIn {r : RunState} {m : Nat} {s u : State} (inputs : List Word)
    (o : Observation) (hhalted : r ≠ .halted) (hfaulted : r ≠ .faulted) (hu : Within m s u)
    (hstay : StaysIn r u) : ¬ EndsWith s inputs o := by
  rintro ⟨n, t, ht, he, -, -⟩
  obtain ⟨w, hw, rfl⟩ := hstay n
  have hlater : Within (m + n) s w := within_add.mpr ⟨u, hu, hw⟩
  have hrun : w.run = t.run :=
    run_eq_of_observe_eq (observe_of_ended_of_le ht he hlater (Nat.le_add_left n m))
  rcases t.ended_iff.mp he with h | h
  · exact hhalted (hrun.trans h)
  · exact hfaulted (hrun.trans h)

/-- Settles O60. -/
theorem stuckRunsAndHangsNeverEnd : Obligations.StuckRunsAndHangsNeverEnd := by
  rintro s inputs o (⟨m, u, hu, hstay⟩ | ⟨m, u, hu, hstay⟩)
  · exact not_endsWith_of_staysIn (r := .waitIn) inputs o nofun nofun hu hstay
  · exact not_endsWith_of_staysIn (r := .run) inputs o nofun nofun hu hstay

/-! ### The block does not see the host's plans -/

section
variable (es : List HostEvent)

/-- Decoding does not read the host's plans. -/
@[simp] theorem decodeAt_setSchedule (s : State) : decodeAt (s.setSchedule es) = decodeAt s :=
  decodeAt_congr rfl rfl fun _ => rfl

/-- A destination write is the same write with other plans of the host. -/
theorem writeDest_setSchedule (s : State) (a : Operand) (v : Word) :
    writeDest (s.setSchedule es) a v = (writeDest s a v).map fun t => t.setSchedule es := by
  cases a with
  | reg r => rfl
  | lit d =>
    by_cases hd : d.toNat < s.params.memWords
    · rw [writeDest_lit_inside v hd, writeDest_lit_inside (s := s.setSchedule es) v hd]
      rfl
    · have hd := Nat.not_lt.mp hd
      rw [writeDest_lit_outside v hd, writeDest_lit_outside (s := s.setSchedule es) v hd]
      rfl

/-- And the end of an instruction is the same end. -/
theorem finish_setSchedule {s t : State} {r : Except Raised State} (h : finish s r = .next t) :
    finish (s.setSchedule es) (r.map fun u => u.setSchedule es) = .next (t.setSchedule es) := by
  rcases finish_cases h with rfl | ⟨e, rfl, rfl⟩ <;> rfl

/-- An instruction whose equation in `s` and with other plans of the host answers states that differ
in the plans alone does the same with them. -/
theorem exec_setSchedule_of_next {i : Instr} {s t u : State} (h : exec i s = .next t)
    (hs : exec i s = .next u) (hes : exec i (s.setSchedule es) = .next (u.setSchedule es)) :
    exec i (s.setSchedule es) = .next (t.setSchedule es) := by
  rw [h, Host.Outcome.next.injEq] at hs
  rw [hes, hs]

/-- So does one whose equation in both is the same destination write. -/
theorem exec_setSchedule_of_writeDest {i : Instr} {s t u : State} {a : Operand} {v : Word}
    (h : exec i s = .next t) (hs : exec i s = finish s (writeDest u a v))
    (hes : exec i (s.setSchedule es) =
      finish (s.setSchedule es) (writeDest (u.setSchedule es) a v)) :
    exec i (s.setSchedule es) = .next (t.setSchedule es) := by
  rw [hes, writeDest_setSchedule]
  exact finish_setSchedule es (hs.symm.trans h)

/-- NO INSTRUCTION READS THE HOST'S PLANS (00_scope.md R13): with any others it does the same. -/
theorem exec_setSchedule {i : Instr} {s t : State} (h : exec i s = .next t) :
    exec i (s.setSchedule es) = .next (t.setSchedule es) := by
  cases i with
  | halt | noop | jmp _ | out _ => exact exec_setSchedule_of_next es h rfl rfl
  | jt a b => exact exec_setSchedule_of_next es h (exec_jt s a b) (exec_jt _ a b)
  | jf a b => exact exec_setSchedule_of_next es h (exec_jf s a b) (exec_jf _ a b)
  | set _ _ | eq _ _ _ | gt _ _ _ | add _ _ _ | mult _ _ _ | and _ _ _ | or _ _ _ | not _ _ =>
    exact exec_setSchedule_of_writeDest es h rfl rfl
  | mod a b c =>
    by_cases hc : valueOf s c = 0
    · exact exec_setSchedule_of_next es h (exec_mod_zero a b hc) (exec_mod_zero a b hc)
    · exact exec_setSchedule_of_writeDest es h (exec_mod_of_ne_zero a b hc)
        (exec_mod_of_ne_zero a b hc)
  | rmem a b =>
    rcases Nat.lt_or_ge (valueOf s b).toNat s.params.memWords with hb | hb
    · exact exec_setSchedule_of_writeDest es h (exec_rmem_inside a hb) (exec_rmem_inside a hb)
    · exact exec_setSchedule_of_next es h (exec_rmem_outside a hb) (exec_rmem_outside a hb)
  | wmem a b =>
    rcases Nat.lt_or_ge (valueOf s a).toNat s.params.memWords with ha | ha
    · exact exec_setSchedule_of_next es h (exec_wmem_inside ha) (exec_wmem_inside ha)
    · exact exec_setSchedule_of_next es h (exec_wmem_outside b ha) (exec_wmem_outside b ha)
  | push a =>
    by_cases hc : s.params.stackCapacity = some s.sp
    · exact exec_setSchedule_of_next es h (exec_push_full a hc) (exec_push_full a hc)
    · exact exec_setSchedule_of_next es h (exec_push_room a hc) (exec_push_room a hc)
  | call a =>
    by_cases hc : s.params.stackCapacity = some s.sp
    · exact exec_setSchedule_of_next es h (exec_call_full a hc) (exec_call_full a hc)
    · exact exec_setSchedule_of_next es h (exec_call_room a hc) (exec_call_room a hc)
  | pop a =>
    cases hs : s.stack with
    | nil => exact exec_setSchedule_of_next es h (exec_pop_nil a hs) (exec_pop_nil a hs)
    | cons v rest =>
      exact exec_setSchedule_of_writeDest es h (exec_pop_cons a hs) (exec_pop_cons a hs)
  | ret =>
    cases hs : s.stack with
    | nil => exact exec_setSchedule_of_next es h (exec_ret_nil hs) (exec_ret_nil hs)
    | cons v rest => exact exec_setSchedule_of_next es h (exec_ret_cons hs) (exec_ret_cons hs)
  | inp a =>
    by_cases hr : s.run = .waitIn
    · cases ho : s.offered with
      | nil => exact exec_setSchedule_of_next es h (exec_inp_waits a hr ho) (exec_inp_waits a hr ho)
      | cons v rest =>
        exact exec_setSchedule_of_writeDest es h (exec_inp_offered a hr ho)
          (exec_inp_offered a hr ho)
    · exact exec_setSchedule_of_next es h (exec_inp_begins a hr) (exec_inp_begins a hr)

end

/-! ### A host that offers all its words at the start -/

/-- `s` with a host that offers the words `ws` and is quiet from then on, and without the words sent
before the run, which are no part of its observation (R280). -/
def State.supplied (ws : List Word) (s : State) : State :=
  (s.mapChannels fun c => { c with sentBefore := [], offered := ws }).setSchedule []

/-- The host of `s.supplied ws` is quiet. -/
theorem hostQuiet_supplied (ws : List Word) (s : State) : HostQuiet (s.supplied ws) := rfl

/-- Decoding does not see the host. -/
@[simp] theorem decodeAt_supplied (ws : List Word) (s : State) :
    decodeAt (s.supplied ws) = decodeAt s :=
  decodeAt_congr rfl rfl fun _ => rfl

/-- A destination write does not see the host. -/
theorem writeDest_supplied {s t : State} {a : Operand} {v : Word} (ws : List Word)
    (h : writeDest s a v = .ok t) : writeDest (s.supplied ws) a v = .ok (t.supplied ws) := by
  rw [State.supplied, writeDest_setSchedule, writeDest_mapChannels, h]
  rfl

/-- Nor does an instruction, unless the block waits: it does the same with any other. -/
theorem exec_supplied {i : Instr} {s t : State} (ws : List Word) (hr : s.run ≠ .waitIn)
    (h : exec i s = .next t) : exec i (s.supplied ws) = .next (t.supplied ws) := by
  apply exec_setSchedule
  cases i with
  | inp a => exact exec_mapChannels_of_next _ h (exec_inp_begins a hr) (exec_inp_begins a hr)
  | out a => exact exec_mapChannels_of_next _ h rfl rfl
  | _ => exact exec_mapChannels _ nofun nofun h

/-- A waiting `in` takes nothing and waits on, or takes one word and does the same where that word
is the first a host offers (R221). -/
theorem exec_inp_supplied {s t : State} {a : Operand} (hr : s.run = .waitIn)
    (ha : a.destOk s.params.memWords = true) (h : exec (.inp a) s = .next t) :
    t = s ∨ ∃ v, t.taken = s.taken ++ [v] ∧
      ∀ ws, exec (.inp a) (s.supplied (v :: ws)) = .next (t.supplied ws) := by
  cases ho : s.offered with
  | nil =>
    rw [exec_inp_waits a hr ho, Host.Outcome.next.injEq] at h
    exact .inl h.symm
  | cons v rest =>
    obtain ⟨u, hu⟩ := writeDest_total (s := inputTaken s v rest) v ha
    rw [exec_inp_takes hr ho hu, Host.Outcome.next.injEq] at h
    obtain ⟨-, -, -, -, -, -, -, ⟨-, htaken, -⟩, -⟩ := writeDest_keeps hu
    rw [h] at hu htaken
    exact .inr ⟨v, htaken, fun ws =>
      exec_inp_takes (s := s.supplied (v :: ws)) (rest := ws) hr rfl (writeDest_supplied ws hu)⟩

/-! ### The simulation -/

/-- From `s` to `t` the block takes some words, and it comes the same way where those words are on
offer from the start, with any others behind them. -/
def ReachesSupplied (s t : State) : Prop :=
  ∃ used n, t.taken = s.taken ++ used ∧
    ∀ ws, Within n (s.supplied (used ++ ws)) (t.supplied ws)

/-- So it does where only the host's side changes. -/
theorem ReachesSupplied.of_supplied_eq {s t : State} (htaken : t.taken = s.taken)
    (h : ∀ ws, t.supplied ws = s.supplied ws) : ReachesSupplied s t :=
  ⟨[], 0, by rw [htaken, List.append_nil], h⟩

/-- And by a step that it takes there too. -/
theorem ReachesSupplied.of_step {s t : State} (used : List Word)
    (htaken : t.taken = s.taken ++ used)
    (h : ∀ ws, step (s.supplied (used ++ ws)) = .next (t.supplied ws)) : ReachesSupplied s t :=
  ⟨used, 1, htaken, fun ws => ⟨nofun, _, h ws, rfl⟩⟩

/-- Two such stretches join. -/
theorem ReachesSupplied.trans {s t u : State} (hst : ReachesSupplied s t)
    (htu : ReachesSupplied t u) : ReachesSupplied s u := by
  obtain ⟨used, m, htaken, hm⟩ := hst
  obtain ⟨used', n, htaken', hn⟩ := htu
  refine ⟨used ++ used', m + n, by rw [htaken', htaken, List.append_assoc], fun ws => ?_⟩
  rw [List.append_assoc]
  exact within_add.mpr ⟨_, hm (used' ++ ws), hn ws⟩

/-- Every step of a run is such a stretch (30_encoding.md R98, 43_io.md R223): an event of the host,
or a step in which the block does not move, changes the host's side alone, and every other step the
block takes with the other host too. -/
theorem reachesSupplied_of_step {s t : State} (hreset : nextEvent s ≠ .reset)
    (hidle : s.run ≠ .idle) (h : step s = .next t) : ReachesSupplied s t := by
  rcases step_cases h with ⟨he, -⟩ | ⟨bytes, -, rfl⟩ | ⟨v, -, rfl⟩ | ⟨-, -, -, rfl⟩ |
    ⟨-, hr, e, hd, rfl⟩ | ⟨-, hr, i, hd, hx⟩ | ⟨-, hr, a, hd, hx⟩
  · exact absurd he hreset
  · rw [loadImage_ignored (s := s.ticked) hidle]
    exact .of_supplied_eq rfl fun _ => rfl
  · exact .of_supplied_eq rfl fun _ => rfl
  · exact .of_supplied_eq rfl fun _ => rfl
  · refine .of_step [] (List.append_nil _).symm fun ws => ?_
    exact step_of_decodeAt_error (hostQuiet_supplied ws s) hr ((decodeAt_supplied ws s).trans hd)
  · have hnw : s.ticked.run ≠ .waitIn := by simp [hr]
    obtain ⟨-, htaken⟩ := exec_input_eq hnw hx
    refine .of_step [] (htaken.trans (List.append_nil _).symm) fun ws => ?_
    calc step (s.supplied ws)
      _ = exec i (s.ticked.supplied ws) :=
        step_of_decodeAt_ok (hostQuiet_supplied ws s) hr ((decodeAt_supplied ws s).trans hd)
      _ = .next (t.supplied ws) := exec_supplied ws hnw hx
  · obtain ⟨-, hdest⟩ := decode_ok hd
    rcases exec_inp_supplied (s := s.ticked) hr hdest hx with rfl | ⟨v, htaken, hws⟩
    · exact .of_supplied_eq rfl fun _ => rfl
    · refine .of_step [v] htaken fun ws => ?_
      calc step (s.supplied (v :: ws))
        _ = exec (.inp a) (s.ticked.supplied (v :: ws)) :=
          step_of_decodeAt_inp (hostQuiet_supplied _ s) hr ((decodeAt_supplied _ s).trans hd)
        _ = .next (t.supplied ws) := hws ws

/-- No instruction leads to IDLE. -/
theorem exec_run_ne_idle {i : Instr} {s t : State} (hx : ExecutesIn i s)
    (h : exec i s = .next t) : t.run ≠ .idle := by
  rcases exec_cases h with heff | ⟨e, -, rfl⟩
  · obtain ⟨hni, -, -⟩ := heff.run_ne hx
    exact hni
  · simp

/-- A run does not come back to IDLE (30_encoding.md R97). -/
theorem step_run_ne_idle {s t : State} (hreset : nextEvent s ≠ .reset) (hidle : s.run ≠ .idle)
    (h : step s = .next t) : t.run ≠ .idle := by
  rcases step_cases h with ⟨he, -⟩ | ⟨bytes, -, rfl⟩ | ⟨v, -, rfl⟩ | ⟨-, -, -, rfl⟩ |
    ⟨-, -, e, -, rfl⟩ | ⟨-, hr, i, -, hx⟩ | ⟨-, hr, a, -, hx⟩
  · exact absurd he hreset
  · rwa [loadImage_ignored (s := s.ticked) hidle]
  · exact hidle
  · exact hidle
  · simp
  · exact exec_run_ne_idle (s := s.ticked) (.inl hr) hx
  · exact exec_run_ne_idle (s := s.ticked) (.inr ⟨hr, a, rfl⟩) hx

/-- So every stretch of a run is one that the other host makes the block take. -/
theorem reachesSupplied_of_within {n : Nat} {s t : State} (hidle : s.run ≠ .idle)
    (h : Within n s t) : ReachesSupplied s t := by
  induction n generalizing s with
  | zero =>
    obtain rfl : t = s := h
    exact .of_supplied_eq rfl fun _ => rfl
  | succ n ih =>
    obtain ⟨hreset, u, hu, h⟩ := h
    exact (reachesSupplied_of_step hreset hidle hu).trans
      (ih (step_run_ne_idle hreset hidle hu) h)

/-! ### The observation of a run -/

/-- A run starts in the state that the successful load leaves (20_memory.md R62). -/
theorem StartsRun.eq_loadSucceeds {bytes : List Byte} {s t : State} (h : StartsRun bytes s t) :
    t = loadSucceeds s.ticked bytes := by
  obtain ⟨he, hidle, hstep, hrun⟩ := h
  rw [step_eq, he] at hstep
  obtain rfl := Host.Outcome.next.inj hstep
  rcases loadImage_cases s.ticked bytes with ⟨-, -, hload⟩ | ⟨-, -, hload⟩ | ⟨hne, -⟩
  · exact hload
  · rw [hload] at hrun
    cases hrun
  · exact absurd hidle hne

/-- A run that ends with an observation ends with it too where the words it took are on offer from
the start. -/
theorem EndsWith.supplied {bytes : List Byte} {s t : State} {inputs : List Word} {o : Observation}
    (hs : StartsRun bytes s t) (h : EndsWith t inputs o) :
    ∃ n u, Within n ((loadSucceeds s.ticked bytes).supplied inputs) u ∧ u.ended = true ∧
      observe u = o := by
  obtain rfl := hs.eq_loadSucceeds
  obtain ⟨n, u, hu, hended, htaken, ho⟩ := h
  obtain ⟨used, m, hused, hm⟩ := reachesSupplied_of_within (by simp) hu
  obtain rfl : used = inputs := hused.symm.trans htaken
  have hend : Within m ((loadSucceeds s.ticked bytes).supplied used) (u.supplied []) :=
    List.append_nil used ▸ hm []
  exact ⟨m, u.supplied [], hend, hended, ho⟩

/-- A loaded block with such a host is fixed by the parameters, the image and the words on
offer. -/
theorem supplied_loadSucceeds_congr {s s' : State} (bytes : List Byte) (ws : List Word)
    (h : s'.params = s.params) :
    (loadSucceeds s' bytes).supplied ws = (loadSucceeds s bytes).supplied ws := by
  simp only [State.supplied, State.mapChannels, State.channels, State.setSchedule, loadSucceeds, h]

/-- Settles O57: both runs end as one and the same run does, whose host offers `inputs` at the
start, and the later of the two ends is observed as the earlier. -/
theorem inputFixesTheObservation : Obligations.InputFixesTheObservation := by
  intro bytes s s' t t' inputs o o' hparams hs hs' h h'
  obtain ⟨m, u, hu, hended, rfl⟩ := h.supplied hs
  obtain ⟨n, u', hu', hended', rfl⟩ := h'.supplied hs'
  rw [supplied_loadSucceeds_congr (s := s.ticked) (s' := s'.ticked) bytes inputs hparams] at hu'
  rcases Nat.le_total m n with hmn | hnm
  · exact observe_of_ended_of_le hu hended hu' hmn
  · exact (observe_of_ended_of_le hu' hended' hu hnm).symm

end Sys2Proof.Machine
end
